-- ==== Sys2Proof/Word.lean ====
section
/-! DEFINITION. The word types of NV12DS (00_scope.md R9, R10). -/

namespace Sys2Proof

/-- A register, an address or a write datum: 32 bits (00_scope.md R9). -/
abbrev Word := BitVec 32

/-- A sample or a memory cell: 8 bits, unsigned (00_scope.md R9). -/
abbrev Byte := BitVec 8

/-- The block accumulator's width, 16 bits (00_scope.md R9, 43_average_reducer.md R161). -/
abbrev Acc := BitVec 16

end Sys2Proof
end

