-- ==== Sys2Proof/Config.lean ====
section
/-! DEFINITION. The elaboration parameters of one NV12DS block (00_scope.md R6, R7; log entry 1) and
the platform's open parameters (R9, 93_implementation_defined.md I7; log entry 9). -/

namespace Sys2Proof

/-- The four geometry parameters of 00_scope.md R6, legal or not. -/
structure Geometry where
  /-- IN_W, the input luma width in samples. -/
  inW : Nat
  /-- IN_H, the input luma height in rows. -/
  inH : Nat
  /-- FX, the horizontal reduction factor (columns). -/
  fx : Nat
  /-- FY, the vertical reduction factor (rows). -/
  fy : Nat
deriving DecidableEq, Repr

/-- The legality condition of 00_scope.md R7 with the ranges of R6. -/
abbrev Geometry.Legal (g : Geometry) : Prop :=
  1 ≤ g.fx ∧ 1 ≤ g.fy ∧ g.fx * g.fy ≤ 256 ∧
  2 ≤ g.inW ∧ g.inW ≤ 65535 ∧ 2 ≤ g.inH ∧ g.inH ≤ 65535 ∧
  g.inW * g.inH * 3 / 2 ≤ 2 ^ 32 - 1

/-- An elaborated block: a geometry with the proof that it is legal. An illegal geometry has no value
of this type, as no hardware exists for it (00_scope.md R7). -/
structure Config where
  geom : Geometry
  legal : geom.Legal
deriving DecidableEq, Repr

/-- Elaboration: the parameter check of 00_scope.md R7 refuses an illegal geometry. -/
def Geometry.elaborate (g : Geometry) : Option Config :=
  if h : g.Legal then some ⟨g, h⟩ else none

/-- The default block: the source's constants (00_scope.md R6). -/
def Config.default : Config := ⟨⟨1920, 1200, 3, 3⟩, by decide⟩

/-- REG_BASE, where the register space sits in a system map: an OPEN parameter, so a constant with no
value (00_scope.md R9, 20_memory.md R67). -/
opaque Config.regBase : Nat

/-- IN_BASE, where the input memory sits in a system map: OPEN (00_scope.md R9, 20_memory.md R67). -/
opaque Config.inBase : Nat

/-- OUT_BASE, where the output memory sits in a system map: OPEN (00_scope.md R9, 20_memory.md R67). -/
opaque Config.outBase : Nat

end Sys2Proof
end

