-- ==== Sys2Proof/Syntax.lean ====
section
/-! DEFINITION. The instructions of NV12DS: the 15 rows of spec/opcode_table.json, which are the host's
requests (30_encoding.md R83) and the commands written to CTRL (R85). -/

namespace Sys2Proof

/-- One constructor per row of the opcode table. `addr` is ADDR and `wdata` is WDATA of the request
(30_encoding.md R81, R86); a command carries no operand. -/
inductive Instr where
  /-- REG_READ (40_host_transactions.md R102). -/
  | regRead (addr : Word)
  /-- REG_WRITE (40_host_transactions.md R103 to R107). -/
  | regWrite (addr : Word) (wdata : Word)
  /-- IN_READ_B (40_host_transactions.md R108). -/
  | inReadB (addr : Word)
  /-- IN_READ_H (40_host_transactions.md R108). -/
  | inReadH (addr : Word)
  /-- IN_READ_W (40_host_transactions.md R108). -/
  | inReadW (addr : Word)
  /-- IN_WRITE_B (40_host_transactions.md R109). -/
  | inWriteB (addr : Word) (wdata : Word)
  /-- IN_WRITE_H (40_host_transactions.md R109). -/
  | inWriteH (addr : Word) (wdata : Word)
  /-- IN_WRITE_W (40_host_transactions.md R109). -/
  | inWriteW (addr : Word) (wdata : Word)
  /-- OUT_READ_B (40_host_transactions.md R110). -/
  | outReadB (addr : Word)
  /-- OUT_READ_H (40_host_transactions.md R110). -/
  | outReadH (addr : Word)
  /-- OUT_READ_W (40_host_transactions.md R110). -/
  | outReadW (addr : Word)
  /-- NOP (41_commands.md R122). -/
  | nop
  /-- START_AVG (41_commands.md R123). -/
  | startAvg
  /-- START_SKIP (41_commands.md R124). -/
  | startSkip
  /-- CLEAR_STATUS (41_commands.md R125). -/
  | clearStatus
deriving DecidableEq, Repr

end Sys2Proof
end

