-- ==== Sys2Proof/WellFormed.lean ====
section
/-! DEFINITION. Which terms of Instr an encoding stands for.
Every address and every write datum is encodable (30_encoding.md R81); the one check is that a
REG_WRITE to CTRL whose word is a command is written as that command (log entry 10). -/

namespace Sys2Proof

/-- The word is one of the four command words of 30_encoding.md R85. -/
def isCommandWord (w : Word) : Bool := decide (w.toNat ≤ 3)

/-- Log entry 10: a REG_WRITE to offset 0x04 with a command word is not well formed. -/
def Instr.wellFormed : Instr → Bool
  | .regWrite addr wdata => !(decide (addr = 0x04) && isCommandWord wdata)
  | .regRead _ | .inReadB _ | .inReadH _ | .inReadW _ => true
  | .inWriteB _ _ | .inWriteH _ _ | .inWriteW _ _ => true
  | .outReadB _ | .outReadH _ | .outReadW _ => true
  | .nop | .startAvg | .startSkip | .clearStatus => true

end Sys2Proof
end

