-- ==== Sys2Proof/Decode.lean ====
section
/-! DEFINITION. The two formats of NV12DS, their decoder and their encoder (30_encoding.md R80 to R89). -/

namespace Sys2Proof

/-- The host request descriptor: KIND 5 bits, ADDR 32 bits, WDATA 32 bits (30_encoding.md R81). -/
structure Hrd where
  kind : BitVec 5
  addr : Word
  wdata : Word
deriving DecidableEq, Repr

/-- The three host-visible address spaces (20_memory.md R60), the SPACE field of KIND. -/
inductive Space where
  | reg | inp | out
deriving DecidableEq, Repr

/-- The eleven legal request kinds of 30_encoding.md R83. -/
inductive Kind where
  | regRead | regWrite
  | inReadB | inReadH | inReadW
  | inWriteB | inWriteH | inWriteW
  | outReadB | outReadH | outReadW
deriving DecidableEq, Repr

/-- Why a request is not decoded: KIND is none of the eleven legal ones (30_encoding.md R87).
The request gets BusError(IllegalKind), and the run goes on. -/
inductive DecodeError where
  | illegalKind
deriving DecidableEq, Repr

/-- The KIND column of 30_encoding.md R83. -/
def Kind.bits : Kind → BitVec 5
  | .regRead => 0x02
  | .regWrite => 0x06
  | .inReadB => 0x08
  | .inReadH => 0x09
  | .inReadW => 0x0A
  | .inWriteB => 0x0C
  | .inWriteH => 0x0D
  | .inWriteW => 0x0E
  | .outReadB => 0x10
  | .outReadH => 0x11
  | .outReadW => 0x12

/-- The match of 30_encoding.md R83 on all five bits; every other value is an illegal kind (R87). -/
def Kind.ofBits (k : BitVec 5) : Option Kind :=
  if k = 0x02 then some .regRead
  else if k = 0x06 then some .regWrite
  else if k = 0x08 then some .inReadB
  else if k = 0x09 then some .inReadH
  else if k = 0x0A then some .inReadW
  else if k = 0x0C then some .inWriteB
  else if k = 0x0D then some .inWriteH
  else if k = 0x0E then some .inWriteW
  else if k = 0x10 then some .outReadB
  else if k = 0x11 then some .outReadH
  else if k = 0x12 then some .outReadW
  else none

/-- The SPACE column of 30_encoding.md R83. -/
def Kind.space : Kind → Space
  | .regRead | .regWrite => .reg
  | .inReadB | .inReadH | .inReadW | .inWriteB | .inWriteH | .inWriteW => .inp
  | .outReadB | .outReadH | .outReadW => .out

/-- The SIZE column of 30_encoding.md R83: n, the number of bytes the request moves. -/
def Kind.size : Kind → Nat
  | .inReadB | .inWriteB | .outReadB => 1
  | .inReadH | .inWriteH | .outReadH => 2
  | .regRead | .regWrite | .inReadW | .inWriteW | .outReadW => 4

/-- The offset of CTRL (10_state.md R23). -/
def ctrlOffset : Word := 0x04

/-- The CTRL word table of 30_encoding.md R85, matched on all 32 bits; any other word is an illegal
command and has no constructor of its own. -/
def decodeCommand (w : Word) : Option Instr :=
  if w = 0x00000000 then some .nop
  else if w = 0x00000001 then some .startAvg
  else if w = 0x00000002 then some .startSkip
  else if w = 0x00000003 then some .clearStatus
  else none

/-- A REG_WRITE: to CTRL it carries a command (30_encoding.md R85, log entry 10). -/
def decodeRegWrite (addr wdata : Word) : Instr :=
  if addr = ctrlOffset then (decodeCommand wdata).getD (.regWrite addr wdata)
  else .regWrite addr wdata

/-- The instruction a legal kind with its operands stands for; a read ignores WDATA (30_encoding.md R81, R86). -/
def decodeKind (k : Kind) (addr wdata : Word) : Instr :=
  match k with
  | .regRead => .regRead addr
  | .regWrite => decodeRegWrite addr wdata
  | .inReadB => .inReadB addr
  | .inReadH => .inReadH addr
  | .inReadW => .inReadW addr
  | .inWriteB => .inWriteB addr wdata
  | .inWriteH => .inWriteH addr wdata
  | .inWriteW => .inWriteW addr wdata
  | .outReadB => .outReadB addr
  | .outReadH => .outReadH addr
  | .outReadW => .outReadW addr

/-- The decoder: total on every request descriptor (30_encoding.md R83, R85, R87, R89). -/
def decode (h : Hrd) : Except DecodeError Instr :=
  match Kind.ofBits h.kind with
  | some k => .ok (decodeKind k h.addr h.wdata)
  | none => .error .illegalKind

/-- The encoder, from the tables of 30_encoding.md R83 and R85. A read's WDATA is ignored by the
hardware and is written as 0. -/
def encode : Instr → Hrd
  | .regRead addr => ⟨0x02, addr, 0⟩
  | .regWrite addr wdata => ⟨0x06, addr, wdata⟩
  | .inReadB addr => ⟨0x08, addr, 0⟩
  | .inReadH addr => ⟨0x09, addr, 0⟩
  | .inReadW addr => ⟨0x0A, addr, 0⟩
  | .inWriteB addr wdata => ⟨0x0C, addr, wdata⟩
  | .inWriteH addr wdata => ⟨0x0D, addr, wdata⟩
  | .inWriteW addr wdata => ⟨0x0E, addr, wdata⟩
  | .outReadB addr => ⟨0x10, addr, 0⟩
  | .outReadH addr => ⟨0x11, addr, 0⟩
  | .outReadW addr => ⟨0x12, addr, 0⟩
  | .nop => ⟨0x06, 0x04, 0x00000000⟩
  | .startAvg => ⟨0x06, 0x04, 0x00000001⟩
  | .startSkip => ⟨0x06, 0x04, 0x00000002⟩
  | .clearStatus => ⟨0x06, 0x04, 0x00000003⟩

/-- The request a word of the opcode table stands for, as log entry 6 numbers its bits: 32 bits are a
CTRL word carried by a REG_WRITE to offset 0x04; any other length is an HRD with KIND in bits 4:0,
ADDR in bits 36:5 and WDATA in bits 68:37. -/
def tableHrd (nbits w : Nat) : Hrd :=
  if nbits = 32 then ⟨0x06, ctrlOffset, BitVec.ofNat 32 w⟩
  else ⟨BitVec.ofNat 5 w, BitVec.ofNat 32 (w / 2 ^ 5), BitVec.ofNat 32 (w / 2 ^ 37)⟩

/-- The instruction the decoder reads from a word of the opcode table. -/
def decodeTableWord (nbits w : Nat) : Option Instr :=
  match decode (tableHrd nbits w) with
  | .ok i => some i
  | .error _ => none

end Sys2Proof
end

