-- ==== Sys2Proof/Machine/State.lean ====
section
/-! DEFINITION. The state of NV12DS (10_state.md), what its environment does, and the ways a step can stop. -/

namespace Sys2Proof.Machine

/-- STATUS.MODE (10_state.md R30); the reserved value 3 is never produced (log entry 7). -/
inductive Mode where
  | none | average | skip
deriving DecidableEq, Repr

/-- STATUS.ERRCODE (10_state.md R29); the reserved values 5 to 7 are never produced (log entry 7). -/
inductive ErrCode where
  | none | usage | inputSize | shapeDivisibility | internalSize
deriving DecidableEq, Repr

/-- STATUS.ERR_PLANE (10_state.md R31). -/
inductive ErrPlane where
  | none | luma | chroma | format
deriving DecidableEq, Repr

/-- The fields of STATUS (10_state.md R26 to R31); its reserved bits hold nothing (R32). -/
structure Status where
  busy : Bool
  done : Bool
  error : Bool
  errCode : ErrCode
  mode : Mode
  errPlane : ErrPlane
deriving DecidableEq, Repr

/-- A frame memory (10_state.md R43): the written cells, by strictly rising address. A cell that is
not listed is unwritten and reads as no value (20_memory.md R65, log entry 5). -/
abbrev Memory := List Host.Cell

/-- The two frame memories (10_state.md R41, R42). -/
inductive FrameMem where
  | inp | out
deriving DecidableEq, Repr

/-- The bus error reasons, in the order they are checked (40_host_transactions.md R112). -/
inductive BusReason where
  | illegalKind | outOfRange | misaligned | readOnly | busy
deriving DecidableEq, Repr

/-- What a model records of a bus error: the reason, KIND and ADDR (60_exceptions.md R211). -/
structure BusErrorInfo where
  reason : BusReason
  kind : BitVec 5
  addr : Word
deriving DecidableEq, Repr

/-- The response of a host transaction (30_encoding.md R81), log entry 4. -/
inductive Response where
  /-- RESP = OKAY with RDATA, which is 0 for a write. -/
  | okay (rdata : Word)
  /-- RESP = BUSERR with RDATA = 0. -/
  | busError (info : BusErrorInfo)
deriving DecidableEq, Repr

/-- What the environment does next (20_memory.md R69, 70_reset_and_hazards.md R240), log entries 2 and 3. -/
inductive Input where
  /-- The host issues a request. -/
  | request (h : Hrd)
  /-- The engine is given its step. -/
  | engine
  /-- The reset input is asserted. -/
  | reset
deriving DecidableEq, Repr

/-- The one way a run ends in NV12DS's model. -/
inductive Fault where
  /-- A host read of an unwritten IN or OUT cell, or an engine read of an unwritten IN cell
  (20_memory.md R65). Raised by the IN and OUT reads and by OPERATION. Safe: the hardware returns an
  unspecified byte and goes on where the model stops. -/
  | unwrittenRead (mem : FrameMem) (addr : Nat)
deriving DecidableEq, Repr

/-- Why the model gives an instruction no meaning. -/
inductive Refusal where
  /-- An instruction without a meaning yet, by its mnemonic. No arm raises it. Safe: the model stops. -/
  | notModelled (mnemonic : String)
deriving DecidableEq, Repr

/-- The state: 10_state.md R22's architectural state, and the model's own fields `cfg` (log entry 1),
`inputs` (log entry 2) and `response` (log entry 4). -/
structure State where
  /-- The elaborated geometry; no step changes it. -/
  cfg : Config
  /-- STATUS (10_state.md R26 to R32). -/
  status : Status
  /-- IRQ_EN.EN (10_state.md R33). -/
  irqEn : Bool
  /-- IN_LEN (10_state.md R34). -/
  inLen : Word
  /-- OUT_LEN (10_state.md R35). -/
  outLen : Word
  /-- The input memory IN (10_state.md R41). -/
  inMem : Memory
  /-- The output memory OUT (10_state.md R42). -/
  outMem : Memory
  /-- What the environment does next, oldest first. -/
  inputs : List Input
  /-- The response of the last host transaction since reset. -/
  response : Option Response
deriving DecidableEq, Repr

/-- STATUS after reset: every field 0 (10_state.md R46). -/
def Status.reset : Status := ⟨false, false, false, .none, .none, .none⟩

/-- The state after reset (10_state.md R46, 70_reset_and_hazards.md R240, R241), for the default
geometry (00_scope.md R6; log entries 1, 3). -/
def State.reset : State where
  cfg := Config.default
  status := Status.reset
  irqEn := false
  inLen := 0
  outLen := 0
  inMem := []
  outMem := []
  inputs := []
  response := none

end Sys2Proof.Machine
end

