-- ==== Sys2Proof/Machine/Flags.lean ====
section
/-! DEFINITION. The STATUS word, the values its fields take, and the interrupt output
(10_state.md R26 to R32, 41_commands.md R123 to R128, 60_exceptions.md R213, R219). -/

namespace Sys2Proof.Machine

/-- The two bits of STATUS.MODE (10_state.md R30). -/
def Mode.bits : Mode → BitVec 2
  | .none => 0
  | .average => 1
  | .skip => 2

/-- The three bits of STATUS.ERRCODE (10_state.md R29). -/
def ErrCode.bits : ErrCode → BitVec 3
  | .none => 0
  | .usage => 1
  | .inputSize => 2
  | .shapeDivisibility => 3
  | .internalSize => 4

/-- The two bits of STATUS.ERR_PLANE (10_state.md R31). -/
def ErrPlane.bits : ErrPlane → BitVec 2
  | .none => 0
  | .luma => 1
  | .chroma => 2
  | .format => 3

/-- The STATUS word as a host reads it (10_state.md R32). -/
def Status.word (st : Status) : Word :=
  0#18 ++ st.errPlane.bits ++ 0#2 ++ st.mode.bits ++ 0#1 ++ st.errCode.bits ++ 0#1 ++
    BitVec.ofBool st.error ++ BitVec.ofBool st.done ++ BitVec.ofBool st.busy

/-- STATUS after a START with this mode (41_commands.md R123, R124). -/
def Status.started (m : Mode) : Status := { Status.reset with busy := true, mode := m }

/-- STATUS after the error completion; MODE keeps its value (60_exceptions.md R213). -/
def Status.failed (st : Status) (code : ErrCode) (plane : ErrPlane) : Status :=
  { st with busy := false, done := true, error := true, errCode := code, errPlane := plane }

/-- STATUS after the successful completion; MODE keeps its value (41_commands.md R128). -/
def Status.completed (st : Status) : Status :=
  { st with busy := false, done := true, error := false, errCode := .none, errPlane := .none }

/-- The interrupt output: STATUS.DONE and IRQ_EN.EN (60_exceptions.md R219). -/
def State.irq (s : State) : Bool := s.status.done && s.irqEn

end Sys2Proof.Machine
end

