-- ==== Sys2Proof/Machine/Geometry.lean ====
section
/-! DEFINITION. The quantities derived from the geometry (00_scope.md R8), in unbounded integers. -/

namespace Sys2Proof.Machine

/-- N, the samples of one block (00_scope.md R8). -/
def blockN (g : Geometry) : Nat := g.fx * g.fy

/-- OUT_W (00_scope.md R8). -/
def outW (g : Geometry) : Nat := g.inW / g.fx

/-- OUT_H (00_scope.md R8). -/
def outH (g : Geometry) : Nat := g.inH / g.fy

/-- IN_Y_BYTES, the bytes of the input luma plane (00_scope.md R8). -/
def inYBytes (g : Geometry) : Nat := g.inW * g.inH

/-- CH_H, the chroma rows (00_scope.md R8). -/
def chH (g : Geometry) : Nat := g.inH / 2

/-- CH_W, the ChromaSample pairs of a chroma row (00_scope.md R8). -/
def chW (g : Geometry) : Nat := g.inW / 2

/-- CH_STRIDE, the bytes of an input chroma row (00_scope.md R8). -/
def chStride (g : Geometry) : Nat := g.inW

/-- IN_FRAME_BYTES, evaluated left to right (00_scope.md R8). -/
def inFrameBytes (g : Geometry) : Nat := g.inW * g.inH * 3 / 2

/-- OUT_CH_H (00_scope.md R8). -/
def outChH (g : Geometry) : Nat := chH g / g.fy

/-- OUT_CH_W (00_scope.md R8). -/
def outChW (g : Geometry) : Nat := chW g / g.fx

/-- OUT_Y_BYTES, the bytes of the output luma plane (00_scope.md R8). -/
def outYBytes (g : Geometry) : Nat := outW g * outH g

/-- OUT_CH_STRIDE, the bytes of an output chroma row (00_scope.md R8). -/
def outChStride (g : Geometry) : Nat := 2 * outChW g

/-- OUT_FRAME_BYTES, evaluated left to right (00_scope.md R8). -/
def outFrameBytes (g : Geometry) : Nat := outW g * outH g * 3 / 2

/-- IN_CAP, the cells of IN (00_scope.md R9, 10_state.md R41). -/
def inCap (g : Geometry) : Nat := inFrameBytes g

/-- OUT_CAP, the cells of OUT (00_scope.md R9, 10_state.md R42). -/
def outCap (g : Geometry) : Nat := outFrameBytes g

end Sys2Proof.Machine
end

