-- ==== Sys2Proof/Machine/Operands.lean ====
section
/-! DEFINITION. Operand assembly (30_encoding.md R86), byte order (20_memory.md R61), the register
offsets (10_state.md R23) and where the platform places the three spaces (20_memory.md R67). -/

namespace Sys2Proof.Machine

/-- Byte k of a write datum, v[8k+7:8k] (20_memory.md R61). -/
def byteLane (v : Word) (k : Nat) : Byte := v.extractLsb' (8 * k) 8

/-- The zero-extended little-endian value of the bytes, the lowest address first (20_memory.md R61, 30_encoding.md R86). -/
def littleEndian : List Byte → Word
  | [] => 0
  | b :: bs => b.setWidth 32 ||| littleEndian bs <<< 8

/-- The eleven registers of 10_state.md R23. -/
inductive Reg where
  | id | ctrl | status | irqEn | inLen | outLen | inDim | factor | outDim | inSize | outSize
deriving DecidableEq, Repr

/-- The register at a byte offset (10_state.md R23). -/
def regAt (addr : Word) : Option Reg :=
  if addr = 0x00 then some .id
  else if addr = 0x04 then some .ctrl
  else if addr = 0x08 then some .status
  else if addr = 0x0C then some .irqEn
  else if addr = 0x10 then some .inLen
  else if addr = 0x14 then some .outLen
  else if addr = 0x18 then some .inDim
  else if addr = 0x1C then some .factor
  else if addr = 0x20 then some .outDim
  else if addr = 0x24 then some .inSize
  else if addr = 0x28 then some .outSize
  else none

/-- RO_OFFSETS of 40_host_transactions.md R100. -/
def isReadOnlyOffset (addr : Word) : Bool :=
  decide (addr ∈ ([0x00, 0x08, 0x14, 0x18, 0x1C, 0x20, 0x24, 0x28] : List Word))

/-- The platform's base of a space: REG_BASE, IN_BASE or OUT_BASE (20_memory.md R67,
93_implementation_defined.md I7). -/
def spaceBase : Space → Nat
  | .reg => Config.regBase
  | .inp => Config.inBase
  | .out => Config.outBase

/-- Where byte ADDR of a space stands in the system map. DEDUCED (log entry 9): the space is placed
whole from its base on. No step reads it, for the block fixes only the offsets inside its spaces
(20_memory.md R67). -/
def systemAddress (sp : Space) (addr : Word) : Nat := spaceBase sp + addr.toNat

end Sys2Proof.Machine
end

