-- ==== Sys2Proof/Machine/Ops.lean ====
section
/-! DEFINITION. The operations every meaning shares: loops, frame memory, registers, the host
transaction with its bus errors, the two completions of a command, and reset. -/

namespace Sys2Proof.Machine

/-! ### Loops (00_scope.md R11) -/

/-- The loop `for i in start .. start+n-1`, in increasing order of i, stopping at the first error. -/
def forLoop {ε σ : Type} (body : Nat → σ → Except ε σ) : (n start : Nat) → σ → Except ε σ
  | 0, _, acc => .ok acc
  | n + 1, i, acc =>
    match body i acc with
    | .ok acc' => forLoop body n (i + 1) acc'
    | .error e => .error e

/-- The values of f at start, …, start+n-1, computed in increasing order, stopping at the first error. -/
def collect {ε α : Type} (f : Nat → Except ε α) : (n start : Nat) → Except ε (List α)
  | 0, _ => .ok []
  | n + 1, i =>
    match f i with
    | .ok a =>
      match collect f n (i + 1) with
      | .ok as => .ok (a :: as)
      | .error e => .error e
    | .error e => .error e

/-- The rows of an h × w grid of values, computed row by row (00_scope.md R12). -/
def collectGrid {ε α : Type} (f : Nat → Nat → Except ε α) (h w : Nat) : Except ε (List (List α)) :=
  collect (fun r => collect (f r) w 0) h 0

/-! ### Frame memory (10_state.md R43, 20_memory.md R61, R65) -/

/-- The cell at an address: none where no byte has been written (10_state.md R43). -/
def Memory.read : Memory → Nat → Option Byte
  | [], _ => none
  | (k, v) :: m, a => if k = a then some v else Memory.read m a

/-- The memory with the byte b written at address a; the addresses stay strictly rising. -/
def Memory.write : Memory → Nat → Byte → Memory
  | [], a, b => [(a, b)]
  | (k, v) :: m, a, b =>
    if a < k then (a, b) :: (k, v) :: m
    else if a = k then (a, b) :: m
    else (k, v) :: Memory.write m a b

/-- The canonical form: strictly rising addresses. An unlisted address reads as no value, so no
entry can equal what it reads as. -/
abbrev Memory.wf (m : Memory) : Prop := (m.map Prod.fst).Pairwise (· < ·)

/-- One engine or host read of a byte; the error is the unwritten address (20_memory.md R65). -/
def readCell (m : Memory) (a : Nat) : Except Nat Byte :=
  match Memory.read m a with
  | some b => .ok b
  | none => .error a

/-- MemRead(space, a, n) of 20_memory.md R61, zero-extended; the error is the lowest unwritten
address the access covers (R65). -/
def memRead (m : Memory) (a n : Nat) : Except Nat Word := (collect (readCell m) n a).map littleEndian

/-- MemWrite(space, a, n, v) from byte k on: byte lanes k, k+1, … go to a+k, a+k+1, … (20_memory.md R61). -/
def memWriteFrom (m : Memory) (a : Nat) (v : Word) : (k n : Nat) → Memory
  | _, 0 => m
  | k, n + 1 => memWriteFrom (Memory.write m (a + k) (byteLane v k)) a v (k + 1) n

/-- MemWrite(space, a, n, v) of 20_memory.md R61. -/
def memWrite (m : Memory) (a n : Nat) (v : Word) : Memory := memWriteFrom m a v 0 n

/-! ### Registers (40_host_transactions.md R102) -/

/-- The value a REG_READ returns for each register (40_host_transactions.md R102, 10_state.md R24 to R40). -/
def readReg (s : State) : Reg → Word
  | .id => 0x4E563132
  | .ctrl => 0x00000000
  | .status => s.status.word
  | .irqEn => (BitVec.ofBool s.irqEn).setWidth 32
  | .inLen => s.inLen
  | .outLen => s.outLen
  | .inDim => BitVec.ofNat 16 s.cfg.geom.inH ++ BitVec.ofNat 16 s.cfg.geom.inW
  | .factor => BitVec.ofNat 16 s.cfg.geom.fy ++ BitVec.ofNat 16 s.cfg.geom.fx
  | .outDim => BitVec.ofNat 16 (outH s.cfg.geom) ++ BitVec.ofNat 16 (outW s.cfg.geom)
  | .inSize => BitVec.ofNat 32 (inFrameBytes s.cfg.geom)
  | .outSize => BitVec.ofNat 32 (outFrameBytes s.cfg.geom)

/-! ### The two ends of a host transaction (30_encoding.md R81, 60_exceptions.md R211) -/

/-- The transaction ends with RESP = OKAY and this RDATA. -/
def okay (rdata : Word) (s : State) : State := { s with response := some (.okay rdata) }

/-- BusError(reason): RESP = BUSERR, RDATA = 0, and nothing else changes; the model records reason,
KIND and ADDR (60_exceptions.md R211). -/
def busError (reason : BusReason) (kind : BitVec 5) (addr : Word) (s : State) : State :=
  { s with response := some (.busError ⟨reason, kind, addr⟩) }

/-- RESP is OKAY. -/
def Response.isOkay : Response → Bool
  | .okay _ => true
  | .busError _ => false

/-- RDATA, which is 0 for a bus error (30_encoding.md R81). -/
def Response.rdata : Response → Word
  | .okay v => v
  | .busError _ => 0

/-! ### The host transaction (40_host_transactions.md R100, R101, R113) -/

/-- The size in bytes of a space (40_host_transactions.md R113). -/
def spaceSize (g : Geometry) : Space → Nat
  | .reg => 0x2C
  | .inp => inCap g
  | .out => outCap g

/-- AddrCheck of 40_host_transactions.md R113: OutOfRange before Misaligned, without wrapping. -/
def addrCheck (g : Geometry) (k : Kind) (addr : Word) : Option BusReason :=
  if addr.toNat + k.size > spaceSize g k.space then some .outOfRange
  else if addr.toNat % k.size ≠ 0 then some .misaligned
  else none

/-- Interlocked(req, ADDR) of 40_host_transactions.md R101. -/
def interlocked (k : Kind) (addr : Word) : Bool :=
  match k with
  | .regWrite => decide (addr = 0x04) || decide (addr = 0x10)
  | .inWriteB | .inWriteH | .inWriteW | .outReadB | .outReadH | .outReadW => true
  | .regRead | .inReadB | .inReadH | .inReadW => false

/-- The checks of 40_host_transactions.md R100 for a legal kind, in their order: the first that fails. -/
def checkRequest (s : State) (k : Kind) (addr : Word) : Option BusReason :=
  match addrCheck s.cfg.geom k addr with
  | some reason => some reason
  | none =>
    if k = .regWrite ∧ isReadOnlyOffset addr = true then some .readOnly
    else if s.status.busy = true ∧ interlocked k addr = true then some .busy
    else none

/-- A host transaction of a legal kind (40_host_transactions.md R100): the checks, then the request. -/
def transact (k : Kind) (addr : Word) (perform : State → Host.Outcome State Fault Refusal) (s : State) :
    Host.Outcome State Fault Refusal :=
  match checkRequest s k addr with
  | some reason => .next (busError reason k.bits addr s)
  | none => perform s

/-! ### The error completion, the successful completion and reset -/

/-- OpError(code, plane), the error completion of a command or an operation (60_exceptions.md R213). -/
def opError (code : ErrCode) (plane : ErrPlane) (s : State) : State :=
  { s with status := s.status.failed code plane }

/-- COMPLETE_OK, the successful end of an operation (41_commands.md R128). -/
def completeOk (s : State) : State := { s with status := s.status.completed }

/-- Reset (70_reset_and_hazards.md R240 to R242): the register fields at their reset values, every
cell unwritten, and an operation in flight aborted. Log entry 3. -/
def resetAction (s : State) : State :=
  { s with
    status := Status.reset, irqEn := false, inLen := 0, outLen := 0, inMem := [], outMem := [],
    response := none }

end Sys2Proof.Machine
end

