-- ==== Sys2Proof/Machine/Command.lean ====
section
/-! DEFINITION. The commands written to CTRL (41_commands.md R120 to R126). -/

namespace Sys2Proof.Machine

/-- NOP writes no state (41_commands.md R122). -/
def commandNop (s : State) : State := s

/-- START with a mode: STATUS holds BUSY and MODE alone, OUT_LEN becomes 0, and the engine step is
enabled (41_commands.md R123, R124). -/
def commandStart (m : Mode) (s : State) : State :=
  { s with status := Status.started m, outLen := 0 }

/-- CLEAR_STATUS: STATUS becomes 0 (41_commands.md R125). -/
def commandClear (s : State) : State := { s with status := Status.reset }

/-- An illegal command: MODE becomes 0 and the USAGE op error completes it (41_commands.md R126). -/
def commandIllegal (s : State) : State :=
  opError .usage .none { s with status := { s.status with mode := .none } }

/-- Command(w) of 41_commands.md R120. -/
def command (w : Word) (s : State) : State :=
  if w = 0x00000000 then commandNop s
  else if w = 0x00000001 then commandStart .average s
  else if w = 0x00000002 then commandStart .skip s
  else if w = 0x00000003 then commandClear s
  else commandIllegal s

/-- A REG_WRITE to CTRL that runs the given command, with RDATA 0 (40_host_transactions.md R103, R104). -/
def writeCtrl (cmd : State → State) (s : State) : Host.Outcome State Fault Refusal :=
  transact .regWrite ctrlOffset (fun s => .next (okay 0 (cmd s))) s

/-- NOP (41_commands.md R122). -/
def execNop (s : State) : Host.Outcome State Fault Refusal := writeCtrl commandNop s

/-- START_AVG (41_commands.md R123). -/
def execStartAvg (s : State) : Host.Outcome State Fault Refusal := writeCtrl (commandStart .average) s

/-- START_SKIP (41_commands.md R124). -/
def execStartSkip (s : State) : Host.Outcome State Fault Refusal := writeCtrl (commandStart .skip) s

/-- CLEAR_STATUS (41_commands.md R125). -/
def execClearStatus (s : State) : Host.Outcome State Fault Refusal := writeCtrl commandClear s

end Sys2Proof.Machine
end

