-- ==== Sys2Proof/Machine/InputMemory.lean ====
section
/-! DEFINITION. The host's requests to the input memory IN (40_host_transactions.md R108, R109). -/

namespace Sys2Proof.Machine

/-- An IN read that passed its checks: the value, or the model fault on an unwritten cell (40_host_transactions.md R108). -/
def performInRead (addr : Word) (n : Nat) (s : State) : Host.Outcome State Fault Refusal :=
  match memRead s.inMem addr.toNat n with
  | .ok v => .next (okay v s)
  | .error a => .fault (.unwrittenRead .inp a)

/-- An IN write that passed its checks: n bytes of WDATA, RDATA 0 (40_host_transactions.md R109). -/
def performInWrite (addr : Word) (n : Nat) (wdata : Word) (s : State) : Host.Outcome State Fault Refusal :=
  .next (okay 0 { s with inMem := memWrite s.inMem addr.toNat n wdata })

/-- IN_READ_B (40_host_transactions.md R108). -/
def execInReadB (addr : Word) (s : State) : Host.Outcome State Fault Refusal :=
  transact .inReadB addr (performInRead addr 1) s

/-- IN_READ_H (40_host_transactions.md R108). -/
def execInReadH (addr : Word) (s : State) : Host.Outcome State Fault Refusal :=
  transact .inReadH addr (performInRead addr 2) s

/-- IN_READ_W (40_host_transactions.md R108). -/
def execInReadW (addr : Word) (s : State) : Host.Outcome State Fault Refusal :=
  transact .inReadW addr (performInRead addr 4) s

/-- IN_WRITE_B (40_host_transactions.md R109). -/
def execInWriteB (addr wdata : Word) (s : State) : Host.Outcome State Fault Refusal :=
  transact .inWriteB addr (performInWrite addr 1 wdata) s

/-- IN_WRITE_H (40_host_transactions.md R109). -/
def execInWriteH (addr wdata : Word) (s : State) : Host.Outcome State Fault Refusal :=
  transact .inWriteH addr (performInWrite addr 2 wdata) s

/-- IN_WRITE_W (40_host_transactions.md R109). -/
def execInWriteW (addr wdata : Word) (s : State) : Host.Outcome State Fault Refusal :=
  transact .inWriteW addr (performInWrite addr 4 wdata) s

end Sys2Proof.Machine
end

