-- ==== Sys2Proof/Machine/OutputMemory.lean ====
section
/-! DEFINITION. The host's reads of the output memory OUT (40_host_transactions.md R110). -/

namespace Sys2Proof.Machine

/-- An OUT read that passed its checks: the value, or the model fault on an unwritten cell (40_host_transactions.md R110). -/
def performOutRead (addr : Word) (n : Nat) (s : State) : Host.Outcome State Fault Refusal :=
  match memRead s.outMem addr.toNat n with
  | .ok v => .next (okay v s)
  | .error a => .fault (.unwrittenRead .out a)

/-- OUT_READ_B (40_host_transactions.md R110). -/
def execOutReadB (addr : Word) (s : State) : Host.Outcome State Fault Refusal :=
  transact .outReadB addr (performOutRead addr 1) s

/-- OUT_READ_H (40_host_transactions.md R110). -/
def execOutReadH (addr : Word) (s : State) : Host.Outcome State Fault Refusal :=
  transact .outReadH addr (performOutRead addr 2) s

/-- OUT_READ_W (40_host_transactions.md R110). -/
def execOutReadW (addr : Word) (s : State) : Host.Outcome State Fault Refusal :=
  transact .outReadW addr (performOutRead addr 4) s

end Sys2Proof.Machine
end

