-- ==== Sys2Proof/Machine/Register.lean ====
section
/-! DEFINITION. The register requests REG_READ and REG_WRITE (40_host_transactions.md R102 to R107). -/

namespace Sys2Proof.Machine

/-- What a REG_READ that passed its checks does (40_host_transactions.md R102). Every offset that
passes the address check is a register's; any other would be out of range (20_memory.md R60). -/
def performRegRead (addr : Word) (s : State) : Host.Outcome State Fault Refusal :=
  match regAt addr with
  | some r => .next (okay (readReg s r) s)
  | none => .next (busError .outOfRange Kind.regRead.bits addr s)

/-- The state after a REG_WRITE to a register, or none for a read-only one (40_host_transactions.md R103 to R107). -/
def writeReg (r : Reg) (wdata : Word) (s : State) : Option State :=
  match r with
  | .ctrl => some (command wdata s)
  | .irqEn => some { s with irqEn := wdata.getLsbD 0 }
  | .inLen => some { s with inLen := wdata }
  | .id | .status | .outLen | .inDim | .factor | .outDim | .inSize | .outSize => none

/-- What a REG_WRITE that passed its checks does (40_host_transactions.md R103); RDATA is 0. The
read-only offsets are refused before, in R100's order. -/
def performRegWrite (addr wdata : Word) (s : State) : Host.Outcome State Fault Refusal :=
  match regAt addr with
  | some r =>
    match writeReg r wdata s with
    | some s' => .next (okay 0 s')
    | none => .next (busError .readOnly Kind.regWrite.bits addr s)
  | none => .next (busError .outOfRange Kind.regWrite.bits addr s)

/-- REG_READ (40_host_transactions.md R102). -/
def execRegRead (addr : Word) (s : State) : Host.Outcome State Fault Refusal :=
  transact .regRead addr (performRegRead addr) s

/-- REG_WRITE (40_host_transactions.md R103). -/
def execRegWrite (addr wdata : Word) (s : State) : Host.Outcome State Fault Refusal :=
  transact .regWrite addr (performRegWrite addr wdata) s

end Sys2Proof.Machine
end

