-- ==== Sys2Proof/Machine/Dispatch.lean ====
section
/-! DEFINITION. One arm per instruction: each calls that instruction's meaning. -/

namespace Sys2Proof.Machine

def exec (i : Instr) (s : State) : Host.Outcome State Fault Refusal :=
  match i with
  -- 40_host_transactions.md R102 to R107
  | .regRead addr => Sys2Proof.Machine.execRegRead addr s
  | .regWrite addr wdata => Sys2Proof.Machine.execRegWrite addr wdata s
  -- 40_host_transactions.md R108
  | .inReadB addr => Sys2Proof.Machine.execInReadB addr s
  | .inReadH addr => Sys2Proof.Machine.execInReadH addr s
  | .inReadW addr => Sys2Proof.Machine.execInReadW addr s
  -- 40_host_transactions.md R109
  | .inWriteB addr wdata => Sys2Proof.Machine.execInWriteB addr wdata s
  | .inWriteH addr wdata => Sys2Proof.Machine.execInWriteH addr wdata s
  | .inWriteW addr wdata => Sys2Proof.Machine.execInWriteW addr wdata s
  -- 40_host_transactions.md R110
  | .outReadB addr => Sys2Proof.Machine.execOutReadB addr s
  | .outReadH addr => Sys2Proof.Machine.execOutReadH addr s
  | .outReadW addr => Sys2Proof.Machine.execOutReadW addr s
  -- 41_commands.md R122 to R125
  | .nop => Sys2Proof.Machine.execNop s
  | .startAvg => Sys2Proof.Machine.execStartAvg s
  | .startSkip => Sys2Proof.Machine.execStartSkip s
  | .clearStatus => Sys2Proof.Machine.execClearStatus s

end Sys2Proof.Machine
end

