-- ==== Sys2Proof/Machine/Bus.lean ====
section
/-! DEFINITION. Serving one host request: decode it, then run it (40_host_transactions.md R100, R111). -/

namespace Sys2Proof.Machine

/-- HostTransaction(KIND, ADDR, WDATA): an illegal KIND gets its bus error before ADDR and WDATA are
looked at; a legal one runs (40_host_transactions.md R100, R111). -/
def serveRequest (h : Hrd) (s : State) : Host.Outcome State Fault Refusal :=
  match decode h with
  | .ok i => exec i s
  | .error .illegalKind => .next (busError .illegalKind h.kind h.addr s)

end Sys2Proof.Machine
end

