-- ==== Sys2Proof/Machine/Splitter.lean ====
section
/-! DEFINITION. The plane splitter: the validation checks and the views of IN as planes
(42_plane_splitter.md R140 to R149). -/

namespace Sys2Proof.Machine

/-- InputSizeOK: exact equality of IN_LEN with IN_FRAME_BYTES, a 32-bit compare (42_plane_splitter.md R140). -/
def inputSizeOk (g : Geometry) (inLen : Word) : Bool := inLen == BitVec.ofNat 32 (inFrameBytes g)

/-- FormatOK: both dimensions even (42_plane_splitter.md R141). -/
def formatOk (g : Geometry) : Bool := g.inW % 2 == 0 && g.inH % 2 == 0

/-- BlockDiv(H, W, by, bx) (42_plane_splitter.md R147). -/
def blockDiv (height width fy fx : Nat) : Bool := height % fy == 0 && width % fx == 0

/-- LumaDivOK (42_plane_splitter.md R145). -/
def lumaDivOk (g : Geometry) : Bool := blockDiv g.inH g.inW g.fy g.fx

/-- ChromaDivOK, on the ChromaSample grid (42_plane_splitter.md R146). -/
def chromaDivOk (g : Geometry) : Bool := blockDiv (chH g) (chW g) g.fy g.fx

/-- Validate(): none when it returns OK, else the first failure (42_plane_splitter.md R148). Luma is
checked before chroma, so ERR_PLANE = 2 means that the luma check passed (R149). -/
def validate (g : Geometry) (inLen : Word) : Option (ErrCode × ErrPlane) :=
  if !inputSizeOk g inLen then some (.inputSize, .none)
  else if !formatOk g then some (.shapeDivisibility, .format)
  else if !lumaDivOk g then some (.shapeDivisibility, .luma)
  else if !chromaDivOk g then some (.shapeDivisibility, .chroma)
  else none

/-- A plane as the reducers see it: the sample at a row and a column, or the unwritten address it
would be read from. -/
abbrev Plane := Nat → Nat → Except Nat Byte

/-- The cell of IN that holds Y(r, c) (42_plane_splitter.md R142); these cells are IN[0 .. IN_Y_BYTES-1],
each once (R149). -/
def lumaAddress (g : Geometry) (r c : Nat) : Nat := r * g.inW + c

/-- The cell of IN that holds Craw(rc, b) (42_plane_splitter.md R143); these cells are
IN[IN_Y_BYTES .. IN_FRAME_BYTES-1], each once (R149). -/
def chromaAddress (g : Geometry) (rc b : Nat) : Nat := inYBytes g + rc * chStride g + b

/-- The luma view Y(r, c) (42_plane_splitter.md R142). -/
def lumaView (g : Geometry) (m : Memory) : Plane := fun r c => readCell m (lumaAddress g r c)

/-- The raw chroma view Craw(rc, b) (42_plane_splitter.md R143). -/
def chromaRaw (g : Geometry) (m : Memory) : Plane := fun rc b => readCell m (chromaAddress g rc b)

/-- The ChromaSample view CS(rc, cc)[ch], ch = 0 for U and 1 for V (42_plane_splitter.md R144). -/
def chromaView (g : Geometry) (m : Memory) (ch : Nat) : Plane :=
  fun rc cc => chromaRaw g m rc (2 * cc + ch)

/-- A reduced frame: the rows of Yo and the rows of (U, V) pairs of Co (41_commands.md R127). -/
structure Reduced where
  luma : List (List Byte)
  chroma : List (List (Byte × Byte))
deriving DecidableEq, Repr

/-- The (U, V) pair of two channels at one position, U read before V (43_average_reducer.md R166, 44_skip_reducer.md R184). -/
def pairSample (u v : Except Nat Byte) : Except Nat (Byte × Byte) :=
  match u with
  | .error a => .error a
  | .ok ub => v.map (Prod.mk ub)

/-- The reduced frame whose samples are given by the three planes, read in the order luma rows, then
chroma rows (43_average_reducer.md R165, R166; 44_skip_reducer.md R184). -/
def reduceWith (g : Geometry) (y u v : Plane) : Except Nat Reduced :=
  match collectGrid y (outH g) (outW g) with
  | .error a => .error a
  | .ok luma => (collectGrid (fun rc cc => pairSample (u rc cc) (v rc cc)) (outChH g) (outChW g)).map (Reduced.mk luma)

end Sys2Proof.Machine
end

