-- ==== Sys2Proof/Machine/Average.lean ====
section
/-! DEFINITION. The block-averaging unit, Average mode (43_average_reducer.md R160 to R166). -/

namespace Sys2Proof.Machine

/-- One sample widened to 16 bits and added to the accumulator (43_average_reducer.md R161). -/
def accumulate (acc : Acc) (sample : Except Nat Byte) : Except Nat Acc := sample.map fun b => acc + b.setWidth 16

/-- BlockSum(P, r, c) in the 16-bit accumulator, i outer and j inner (43_average_reducer.md R161). -/
def blockSum (p : Plane) (fy fx r c : Nat) : Except Nat Acc :=
  forLoop (fun i acc => forLoop (fun j acc => accumulate acc (p (r * fy + i) (c * fx + j))) fx 0 acc) fy 0 0

/-- The rounding divide: trunc_8(trunc_16(S + N div 2) div N) (43_average_reducer.md R163, R164). -/
def roundDivide (n : Nat) (sum : Acc) : Byte :=
  BitVec.ofNat 8 ((sum + BitVec.ofNat 16 (n / 2)).toNat / n)

/-- BlockAvg(P, r, c) (43_average_reducer.md R163). -/
def blockAvg (g : Geometry) (p : Plane) : Plane := fun r c =>
  (blockSum p g.fy g.fx r c).map (roundDivide (blockN g))

/-- AvgFrame (43_average_reducer.md R165, R166): each channel is averaged by itself. -/
def avgFrame (g : Geometry) (m : Memory) : Except Nat Reduced :=
  reduceWith g (blockAvg g (lumaView g m)) (blockAvg g (chromaView g m 0)) (blockAvg g (chromaView g m 1))

end Sys2Proof.Machine
end

