-- ==== Sys2Proof/Machine/Packer.lean ====
section
/-! DEFINITION. The output packer (45_output_packer.md R195 to R197). -/

namespace Sys2Proof.Machine

/-- What the packer has written so far: OUT and the count of the bytes written (45_output_packer.md R197). -/
structure Packed where
  mem : Memory
  count : Nat
deriving DecidableEq, Repr

/-- One MemWrite(OUT, a, 1, b), counted (45_output_packer.md R197). -/
def packByte (a : Nat) (b : Byte) (p : Packed) : Packed := ⟨Memory.write p.mem a b, p.count + 1⟩

/-- The bytes of one row, from an address on. -/
def packRow : List Byte → Nat → Packed → Packed
  | [], _, p => p
  | b :: bs, a, p => packRow bs (a + 1) (packByte a b p)

/-- The rows of a plane, row r at base + r * stride (45_output_packer.md R195, R196). -/
def packRows (base stride : Nat) : List (List Byte) → Nat → Packed → Packed
  | [], _, p => p
  | row :: rows, r, p => packRows base stride rows (r + 1) (packRow row (base + r * stride) p)

/-- A row of ChromaSamples flattened to interleaved bytes, U before V (45_output_packer.md R196). -/
def interleave : List (Byte × Byte) → List Byte
  | [] => []
  | (u, v) :: rest => u :: v :: interleave rest

/-- Pack(Yo, Co): luma rows of OUT_W bytes, then chroma rows of OUT_CH_STRIDE bytes (45_output_packer.md R195 to R197). -/
def pack (g : Geometry) (f : Reduced) (out : Memory) : Packed :=
  packRows (outYBytes g) (outChStride g) (f.chroma.map interleave) 0
    (packRows 0 (outW g) f.luma 0 ⟨out, 0⟩)

end Sys2Proof.Machine
end

