-- ==== Sys2Proof/Machine/Skip.lean ====
section
/-! DEFINITION. The strided-sample selector, Skip mode (44_skip_reducer.md R180 to R184). -/

namespace Sys2Proof.Machine

/-- The top-left sample of the block at an output position (44_skip_reducer.md R180, R181, R183). -/
def topLeft (g : Geometry) (p : Plane) : Plane := fun r c => p (r * g.fy) (c * g.fx)

/-- SkipFrame (44_skip_reducer.md R180, R181): both channels come from the one selected ChromaSample. -/
def skipFrame (g : Geometry) (m : Memory) : Except Nat Reduced :=
  reduceWith g (topLeft g (lumaView g m)) (topLeft g (chromaView g m 0)) (topLeft g (chromaView g m 1))

end Sys2Proof.Machine
end

