-- ==== Sys2Proof/Machine/Engine.lean ====
section
/-! DEFINITION. The engine step OPERATION (41_commands.md R127 to R130). -/

namespace Sys2Proof.Machine

/-- The reducer STATUS.MODE selects: AvgFrame for MODE = 1, else SkipFrame (41_commands.md R127, R129; log entry 7). -/
def reduceFrame (m : Mode) (g : Geometry) (mem : Memory) : Except Nat Reduced :=
  match m with
  | .average => avgFrame g mem
  | .skip | .none => skipFrame g mem

/-- The end of an operation after packing: OUT and OUT_LEN are written, then the internal size check
(41_commands.md R127, 45_output_packer.md R197, R198). -/
def finish (p : Packed) (s : State) : State :=
  let packed := { s with outMem := p.mem, outLen := BitVec.ofNat 32 p.count }
  if p.count ≠ outFrameBytes s.cfg.geom then opError .internalSize .none packed
  else completeOk packed

/-- OPERATION (41_commands.md R127): split, validate, reduce, pack, complete. An unwritten IN cell
ends it in the model fault (20_memory.md R65). -/
def operation (s : State) : Host.Outcome State Fault Refusal :=
  match validate s.cfg.geom s.inLen with
  | some (code, plane) => .next (opError code plane s)
  | none =>
    match reduceFrame s.status.mode s.cfg.geom s.inMem with
    | .error a => .fault (.unwrittenRead .inp a)
    | .ok f => .next (finish (pack s.cfg.geom f s.outMem) s)

/-- The engine's turn: OPERATION is enabled exactly when STATUS.BUSY = 1 (41_commands.md R127, R130);
otherwise the engine does nothing (log entry 2). -/
def engineStep (s : State) : Host.Outcome State Fault Refusal :=
  if s.status.busy then operation s else .next s

end Sys2Proof.Machine
end

