-- ==== Sys2Proof/Machine/Step.lean ====
section
/-! DEFINITION. One step of the machine: the next thing the environment does (20_memory.md R69,
70_reset_and_hazards.md R240; log entries 2, 3, 8). -/

namespace Sys2Proof.Machine

/-- One atomic step (20_memory.md R64): a host transaction, an engine step or a reset, as the first
pending input says. With none pending the engine takes its step if it is enabled (41_commands.md
R130), and an idle machine waits for host transactions (70_reset_and_hazards.md R243). -/
def step (s : State) : Host.Outcome State Fault Refusal :=
  match s.inputs with
  | [] => engineStep s
  | .request h :: rest => serveRequest h { s with inputs := rest }
  | .engine :: rest => engineStep { s with inputs := rest }
  | .reset :: rest => .next (resetAction { s with inputs := rest })

/-- The state with the request of an opcode-table word put in front of what is pending, so that the
next step serves it (log entries 6, 8). -/
def State.withFetchWord (s : State) (nbits w : Nat) : State :=
  { s with inputs := .request (tableHrd nbits w) :: s.inputs }

end Sys2Proof.Machine
end

