-- ==== Sys2Proof/Machine/Script.lean ====
section
/-! DEFINITION. The host-script lines and pseudo-instructions of 30_encoding.md R90, R91, as the
requests they stand for (DESIGN CHOICE, log entry 11). -/

namespace Sys2Proof.Machine

/-- The byte offset a register's name stands for (10_state.md R23, 30_encoding.md R90). -/
def Reg.offset : Reg → Word
  | .id => 0x00
  | .ctrl => 0x04
  | .status => 0x08
  | .irqEn => 0x0C
  | .inLen => 0x10
  | .outLen => 0x14
  | .inDim => 0x18
  | .factor => 0x1C
  | .outDim => 0x20
  | .inSize => 0x24
  | .outSize => 0x28

/-- One line of a host script (30_encoding.md R90) or one pseudo-instruction (R91). -/
inductive ScriptLine where
  | rreg (off : Word)
  | wreg (off v : Word)
  | rinB (a : Word) | rinH (a : Word) | rinW (a : Word)
  | winB (a v : Word) | winH (a v : Word) | winW (a v : Word)
  | routB (a : Word) | routH (a : Word) | routW (a : Word)
  | nop | startAvg | startSkip | clear
  /-- `wait`: the host's loop, here as the k reads of STATUS it makes, k ≥ 1 (30_encoding.md R91). DESIGN
  CHOICE (log entry 11): k is given. `wait 0` makes no read and is no host's `wait`. -/
  | wait (k : Nat)
  /-- `load A, b0, …, bk`. -/
  | load (a : Word) (bytes : List Word)
  /-- `fill A, n, v`. -/
  | fill (a : Word) (n : Nat) (v : Word)
deriving DecidableEq, Repr

/-- The byte writes of `load` (30_encoding.md R91). DESIGN CHOICE (log entry 11): the spec does not say
which ADDR a write has where A+i passes 0xFFFFFFFF; here A+i is reduced mod 2^32, so the write after
0xFFFFFFFF goes to ADDR 0, and so it is for `fill`. -/
def loadRequests : Word → List Word → List Hrd
  | _, [] => []
  | a, b :: bs => ⟨0x0C, a, b⟩ :: loadRequests (a + 1) bs

/-- The requests a line stands for (30_encoding.md R90, R91). -/
def ScriptLine.requests : ScriptLine → List Hrd
  | .rreg off => [⟨0x02, off, 0⟩]
  | .wreg off v => [⟨0x06, off, v⟩]
  | .rinB a => [⟨0x08, a, 0⟩]
  | .rinH a => [⟨0x09, a, 0⟩]
  | .rinW a => [⟨0x0A, a, 0⟩]
  | .winB a v => [⟨0x0C, a, v⟩]
  | .winH a v => [⟨0x0D, a, v⟩]
  | .winW a v => [⟨0x0E, a, v⟩]
  | .routB a => [⟨0x10, a, 0⟩]
  | .routH a => [⟨0x11, a, 0⟩]
  | .routW a => [⟨0x12, a, 0⟩]
  | .nop => [⟨0x06, Reg.ctrl.offset, 0x0⟩]
  | .startAvg => [⟨0x06, Reg.ctrl.offset, 0x1⟩]
  | .startSkip => [⟨0x06, Reg.ctrl.offset, 0x2⟩]
  | .clear => [⟨0x06, Reg.ctrl.offset, 0x3⟩]
  | .wait k => List.replicate k ⟨0x02, Reg.status.offset, 0⟩
  | .load a bytes => loadRequests a bytes
  | .fill a n v => loadRequests a (List.replicate n v)

/-- The pending inputs of a host script that the engine does not interrupt. -/
def scriptInputs (lines : List ScriptLine) : List Input :=
  (lines.flatMap ScriptLine.requests).map Input.request

end Sys2Proof.Machine
end

