-- ==== Sys2Proof/Safety.lean ====
section
/-! DEFINITION. What counts as a safe run, in the terms claims use: the invariant of the state, a
loaded frame, and the host's duty (70_reset_and_hazards.md R244, R247, R251). -/

namespace Sys2Proof.Machine

/-- STATUS as the rules keep it: BUSY excludes DONE and has a mode, ERROR comes with DONE, ERRCODE is
nonzero exactly with ERROR, ERR_PLANE is nonzero exactly for SHAPE_DIVISIBILITY, and a completed
operation's fields fit its error (10_state.md R26 to R31, 41_commands.md R129). -/
abbrev Status.Consistent (st : Status) : Prop :=
  (st.busy = true → st.done = false ∧ st.error = false ∧ st.mode ≠ .none) ∧
  (st.error = true → st.done = true) ∧
  (st.errCode ≠ .none ↔ st.error = true) ∧
  (st.errPlane ≠ .none ↔ st.errCode = .shapeDivisibility)

/-- Every written cell of a frame memory is one of its cap cells (10_state.md R41, R42). -/
abbrev Memory.Within (m : Memory) (cap : Nat) : Prop := ∀ cell ∈ m, cell.1 < cap

/-- The invariant every step keeps. -/
structure State.Inv (s : State) : Prop where
  /-- STATUS is consistent. -/
  status : s.status.Consistent
  /-- IN is in canonical form. -/
  inWf : Memory.wf s.inMem
  /-- OUT is in canonical form. -/
  outWf : Memory.wf s.outMem
  /-- IN holds no cell outside IN_CAP. -/
  inWithin : Memory.Within s.inMem (inCap s.cfg.geom)
  /-- OUT holds no cell outside OUT_CAP. -/
  outWithin : Memory.Within s.outMem (outCap s.cfg.geom)
  /-- OUT_LEN is 0 from START to completion (10_state.md R35). -/
  busyOutLen : s.status.busy = true → s.outLen = 0

/-- The host has loaded a whole frame and declared its length (70_reset_and_hazards.md R244, steps 3 and 4). -/
def State.frameLoaded (s : State) : Prop :=
  (∀ a, a < inFrameBytes s.cfg.geom → (Memory.read s.inMem a).isSome = true) ∧
  s.inLen = BitVec.ofNat 32 (inFrameBytes s.cfg.geom)

/-- The geometry passes the shape checks (42_plane_splitter.md R141, R145, R146). -/
def shapesOk (g : Geometry) : Bool := formatOk g && lumaDivOk g && chromaDivOk g

/-- The end of an operation: BUSY = 0 and DONE = 1 (70_reset_and_hazards.md R251). -/
def State.operationEnded (s : State) : Prop := s.status.busy = false ∧ s.status.done = true

/-- The host may take OUT as the output of the operation it started with mode m (70_reset_and_hazards.md R247). -/
def State.mayTakeOutput (s : State) (m : Mode) : Prop :=
  s.status.done = true ∧ s.status.error = false ∧ s.status.mode = m

/-- A run of k steps that meets no fault and no refusal. -/
def State.runsSafely (s : State) (k : Nat) : Prop :=
  ∃ t, Host.Core.run Sys2Proof.core k s = .next t

end Sys2Proof.Machine
end

