-- ==== Sys2Proof/Certificates/Slice0/Obligations.lean ====
section
/-! DEFINITION. The statements about NV12DS that are to be proved, with the words they are said in.
A statement's docstring names the rules of spec/ it formalises. -/

namespace Sys2Proof.Claims
open Sys2Proof.Machine

/-! ### The words the statements use, written from the spec -/

/-- The three widths of an IN or OUT request (30_encoding.md R83). -/
inductive Width where
  | byte | half | word
deriving DecidableEq, Repr

/-- The bytes a width moves. -/
def Width.bytes : Width → Nat
  | .byte => 1
  | .half => 2
  | .word => 4

/-- IN_READ_B, IN_READ_H or IN_READ_W. -/
def inRead : Width → Word → Instr
  | .byte, a => .inReadB a
  | .half, a => .inReadH a
  | .word, a => .inReadW a

/-- IN_WRITE_B, IN_WRITE_H or IN_WRITE_W. -/
def inWrite : Width → Word → Word → Instr
  | .byte, a, v => .inWriteB a v
  | .half, a, v => .inWriteH a v
  | .word, a, v => .inWriteW a v

/-- OUT_READ_B, OUT_READ_H or OUT_READ_W. -/
def outRead : Width → Word → Instr
  | .byte, a => .outReadB a
  | .half, a => .outReadH a
  | .word, a => .outReadW a

/-- The KIND of each of these nine requests (30_encoding.md R83). -/
def inReadKind : Width → BitVec 5
  | .byte => 0x08
  | .half => 0x09
  | .word => 0x0A

/-- The KIND of an IN write. -/
def inWriteKind : Width → BitVec 5
  | .byte => 0x0C
  | .half => 0x0D
  | .word => 0x0E

/-- The KIND of an OUT read. -/
def outReadKind : Width → BitVec 5
  | .byte => 0x10
  | .half => 0x11
  | .word => 0x12

/-- v[8k+7:8k]. -/
def lane (v : Word) (k : Nat) : Byte := BitVec.ofNat 8 (v.toNat / 2 ^ (8 * k))

/-- The sum over k < n of the byte k shifted left by 8k (20_memory.md R61). -/
def wordOf (bytes : Nat → Byte) (n : Nat) : Word :=
  BitVec.ofNat 32 ((List.range n).map fun k => (bytes k).toNat * 2 ^ (8 * k)).sum

/-- The state after a transaction that got RESP = OKAY and this RDATA, and changed nothing else. -/
def accepted (s : State) (rdata : Word) : State := { s with response := some (.okay rdata) }

/-- The state after a transaction that got a bus error: nothing but the response (60_exceptions.md R211). -/
def rejected (s : State) (reason : BusReason) (kind : BitVec 5) (addr : Word) : State :=
  { s with response := some (.busError ⟨reason, kind, addr⟩) }

/-- The KIND column of 30_encoding.md R83. -/
def legalKinds : List (BitVec 5) :=
  [0x02, 0x06, 0x08, 0x09, 0x0A, 0x0C, 0x0D, 0x0E, 0x10, 0x11, 0x12]

/-- The 21 illegal KIND values as 30_encoding.md R87 lists them. -/
def illegalKinds : List (BitVec 5) :=
  [0x00, 0x01, 0x03, 0x04, 0x05, 0x07, 0x0B, 0x0F, 0x13, 0x14, 0x15, 0x16, 0x17,
   0x18, 0x19, 0x1A, 0x1B, 0x1C, 0x1D, 0x1E, 0x1F]

/-- n = 2^SIZE, SIZE = KIND[1:0] (30_encoding.md R81). -/
def kindBytes (k : BitVec 5) : Nat := 2 ^ (k.toNat % 4)

/-- The size of the space SPACE = KIND[4:3] names (40_host_transactions.md R113). -/
def kindSpaceBytes (g : Geometry) (k : BitVec 5) : Nat :=
  if k.toNat / 8 = 0 then 0x2C else if k.toNat / 8 = 1 then inFrameBytes g else outFrameBytes g

/-- RO_OFFSETS (40_host_transactions.md R100). -/
def roOffsets : List Word := [0x00, 0x08, 0x14, 0x18, 0x1C, 0x20, 0x24, 0x28]

/-- Interlocked(req, ADDR), on the KIND bits (40_host_transactions.md R101). -/
def interlockedRequest (k : BitVec 5) (addr : Word) : Prop :=
  (k = 0x06 ∧ (addr = 0x04 ∨ addr = 0x10)) ∨ k ∈ ([0x0C, 0x0D, 0x0E, 0x10, 0x11, 0x12] : List (BitVec 5))

/-- The bus error a request gets, on the KIND bits: the conditions of 60_exceptions.md R212, each
with the earlier ones of 40_host_transactions.md R112's order excluded. -/
def getsReason (s : State) (h : Hrd) : BusReason → Prop
  | .illegalKind => h.kind ∉ legalKinds
  | .outOfRange => h.kind ∈ legalKinds ∧ h.addr.toNat + kindBytes h.kind > kindSpaceBytes s.cfg.geom h.kind
  | .misaligned => h.kind ∈ legalKinds ∧ h.addr.toNat + kindBytes h.kind ≤ kindSpaceBytes s.cfg.geom h.kind ∧
      h.addr.toNat % kindBytes h.kind ≠ 0
  | .readOnly => h.kind = 0x06 ∧ h.addr ∈ roOffsets
  | .busy => h.kind ∈ legalKinds ∧ h.addr.toNat + kindBytes h.kind ≤ kindSpaceBytes s.cfg.geom h.kind ∧
      h.addr.toNat % kindBytes h.kind = 0 ∧ s.status.busy = true ∧ interlockedRequest h.kind h.addr

/-- The address stored to and the number of bytes stored, for the instructions that store to IN. -/
def storedBytes : Instr → Option (Nat × Nat)
  | .inWriteB a _ => some (a.toNat, 1)
  | .inWriteH a _ => some (a.toNat, 2)
  | .inWriteW a _ => some (a.toNat, 4)
  | .regRead _ | .regWrite _ _ | .inReadB _ | .inReadH _ | .inReadW _ | .outReadB _ | .outReadH _
  | .outReadW _ | .nop | .startAvg | .startSkip | .clearStatus => none

/-- The instructions that write CTRL. -/
def writesCtrl : Instr → Prop
  | .nop | .startAvg | .startSkip | .clearStatus => True
  | .regWrite addr _ => addr = 0x04
  | .regRead _ | .inReadB _ | .inReadH _ | .inReadW _ | .inWriteB _ _ | .inWriteH _ _ | .inWriteW _ _
  | .outReadB _ | .outReadH _ | .outReadW _ => False

/-- The read requests. -/
def isRead : Instr → Bool
  | .regRead _ | .inReadB _ | .inReadH _ | .inReadW _ | .outReadB _ | .outReadH _ | .outReadW _ => true
  | .regWrite _ _ | .inWriteB _ _ | .inWriteH _ _ | .inWriteW _ _ | .nop | .startAvg | .startSkip
  | .clearStatus => false

/-- The conditions of 00_scope.md R7 with the ranges of R6. -/
def legalGeometry (g : Geometry) : Prop :=
  1 ≤ g.fx ∧ 1 ≤ g.fy ∧ g.fx * g.fy ≤ 256 ∧ (2 ≤ g.inW ∧ g.inW ≤ 65535) ∧ (2 ≤ g.inH ∧ g.inH ≤ 65535) ∧
    g.inW * g.inH * 3 / 2 ≤ 4294967295

/-- What Validate checks, written out: the length, the even dimensions, the luma and the chroma
divisibility (42_plane_splitter.md R140, R141, R145, R146). -/
def sizeHolds (s : State) : Prop := s.inLen.toNat = s.cfg.geom.inW * s.cfg.geom.inH * 3 / 2
/-- FormatOK (42_plane_splitter.md R141). -/
def formatHolds (g : Geometry) : Prop := g.inW % 2 = 0 ∧ g.inH % 2 = 0
/-- LumaDivOK (42_plane_splitter.md R145). -/
def lumaHolds (g : Geometry) : Prop := g.inH % g.fy = 0 ∧ g.inW % g.fx = 0
/-- ChromaDivOK (42_plane_splitter.md R146). -/
def chromaHolds (g : Geometry) : Prop := g.inH / 2 % g.fy = 0 ∧ g.inW / 2 % g.fx = 0
/-- Every check of Validate passes (42_plane_splitter.md R148). -/
def validFrame (s : State) : Prop :=
  sizeHolds s ∧ formatHolds s.cfg.geom ∧ lumaHolds s.cfg.geom ∧ chromaHolds s.cfg.geom

/-- The address of Y(r, c) (42_plane_splitter.md R142). -/
def lumaAddr (g : Geometry) (r c : Nat) : Nat := r * g.inW + c

/-- The address of CS(rc, cc)[ch] (42_plane_splitter.md R143, R144). -/
def chromaAddr (g : Geometry) (ch rc cc : Nat) : Nat := g.inW * g.inH + rc * g.inW + (2 * cc + ch)

/-- The addresses of one block, i outer and j inner (43_average_reducer.md R161). -/
def blockOrder (g : Geometry) (addr : Nat → Nat → Nat) (r c : Nat) : List Nat :=
  (List.range g.fy).flatMap fun i => (List.range g.fx).map fun j => addr (r * g.fy + i) (c * g.fx + j)

/-- Every output position of the frame in the order luma, then chroma U before V, with the
addresses one output sample reads (43_average_reducer.md R165, R166; 44_skip_reducer.md R184). -/
def frameOrder (g : Geometry) (one : (Nat → Nat → Nat) → Nat → Nat → List Nat) : List Nat :=
  ((List.range (outH g)).flatMap fun r => (List.range (outW g)).flatMap fun c => one (lumaAddr g) r c) ++
  (List.range (outChH g)).flatMap fun rc => (List.range (outChW g)).flatMap fun cc =>
    one (chromaAddr g 0) rc cc ++ one (chromaAddr g 1) rc cc

/-- The read order of a model in Average mode (43_average_reducer.md R165, R166). -/
def averageReadOrder (g : Geometry) : List Nat := frameOrder g (blockOrder g)

/-- The read order of a model in Skip mode: the selected cells (44_skip_reducer.md R184). -/
def skipReadOrder (g : Geometry) : List Nat := frameOrder g fun addr r c => [addr (r * g.fy) (c * g.fx)]

/-- The exact sum of a block of samples. -/
def blockTotal (g : Geometry) (f : Nat → Nat → Byte) (r c : Nat) : Nat :=
  ((List.range g.fy).map fun i => ((List.range g.fx).map fun j => (f (r * g.fy + i) (c * g.fx + j)).toNat).sum).sum

/-- Round half up on the pre-divided sum: (S + N div 2) div N (43_average_reducer.md R163). -/
def roundedMean (g : Geometry) (total : Nat) : Nat := (total + g.fx * g.fy / 2) / (g.fx * g.fy)

/-- STATUS of an operation that ended with this error and mode. -/
def failedStatus (code : ErrCode) (plane : ErrPlane) (m : Mode) : Status := ⟨false, true, true, code, m, plane⟩

/-- STATUS of an operation that succeeded. -/
def succeededStatus (m : Mode) : Status := ⟨false, true, false, .none, m, .none⟩

/-- The reducer's mode: 1 or 2 (41_commands.md R129). -/
def isReducing (m : Mode) : Prop := m = .average ∨ m = .skip

end Sys2Proof.Claims

open Sys2Proof Sys2Proof.Machine Sys2Proof.Claims

/-! ### Elaboration, derived quantities, reset -/

/-- 00_scope.md R7: elaboration accepts exactly the legal geometries, and gives the geometry it was
given; an illegal one has no hardware. -/
def Obligations.ElaborationAcceptsExactlyLegalGeometries : Prop :=
  ∀ g : Geometry,
    (legalGeometry g → ∃ c, g.elaborate = some c ∧ c.geom = g) ∧ (¬ legalGeometry g → g.elaborate = none)

/-- 00_scope.md R8: every derived quantity, by its definition and with its default value. -/
def Obligations.DerivedQuantitiesAndDefaults : Prop :=
  (∀ g : Geometry,
    blockN g = g.fx * g.fy ∧ outW g = g.inW / g.fx ∧ outH g = g.inH / g.fy ∧ inYBytes g = g.inW * g.inH ∧
    chH g = g.inH / 2 ∧ chW g = g.inW / 2 ∧ chStride g = g.inW ∧ inFrameBytes g = g.inW * g.inH * 3 / 2 ∧
    outChH g = g.inH / 2 / g.fy ∧ outChW g = g.inW / 2 / g.fx ∧ outYBytes g = outW g * outH g ∧
    outChStride g = 2 * outChW g ∧ outFrameBytes g = outW g * outH g * 3 / 2) ∧
  (let g := Config.default.geom;
    blockN g = 9 ∧ outW g = 640 ∧ outH g = 400 ∧ inYBytes g = 2304000 ∧ chH g = 600 ∧ chW g = 960 ∧
    chStride g = 1920 ∧ inFrameBytes g = 3456000 ∧ outChH g = 200 ∧ outChW g = 320 ∧ outYBytes g = 256000 ∧
    outChStride g = 640 ∧ outFrameBytes g = 384000)

/-- 10_state.md R46: what the state after reset holds, for the default geometry. -/
def Obligations.ResetValues : Prop :=
  let s := State.reset;
  s.status = ⟨false, false, false, .none, .none, .none⟩ ∧ readReg s .status = 0x00000000 ∧ s.irqEn = false ∧
  s.inLen = 0x00000000 ∧ s.outLen = 0x00000000 ∧ readReg s .ctrl = 0 ∧
  readReg s .id = 0x4E563132 ∧ readReg s .inDim = 0x04B00780 ∧ readReg s .factor = 0x00030003 ∧
  readReg s .outDim = 0x01900280 ∧ readReg s .inSize = 0x0034BC00 ∧ readReg s .outSize = 0x0005DC00 ∧
  (∀ a, Memory.read s.inMem a = none) ∧ (∀ a, Memory.read s.outMem a = none) ∧ s.irq = false

/-- 70_reset_and_hazards.md R240, R241, R242: a reset from any state, BUSY = 1 included. That the reset
input is an entry of the pending inputs, and that the later entries stay (`t.inputs = rest`), is the
model's choice (DESIGN CHOICE, log entry 3). What its own field response holds is not stated. -/
def Obligations.ResetFromAnyState : Prop :=
  ∀ (s : State) (rest : List Input), s.inputs = .reset :: rest →
    ∃ t, step s = .next t ∧ t.inputs = rest ∧ t.cfg = s.cfg ∧
      t.status = ⟨false, false, false, .none, .none, .none⟩ ∧ readReg t .status = 0x00000000 ∧
      t.irqEn = false ∧ t.inLen = 0x00000000 ∧ t.outLen = 0x00000000 ∧ t.irq = false ∧
      engineStep t = .next t ∧
      (∀ r ∈ ([.id, .inDim, .factor, .outDim, .inSize, .outSize] : List Reg), readReg t r = readReg s r) ∧
      (∀ a, Memory.read t.inMem a = none) ∧ (∀ a, Memory.read t.outMem a = none)

/-! ### The invariant -/

/-- The state after reset meets the invariant of Safety.lean. -/
def Obligations.ResetMeetsInvariant : Prop := State.Inv State.reset

/-- The invariant of Safety.lean (10_state.md R26 to R31, R35, R41 to R43; 41_commands.md R129;
45_output_packer.md R199) is kept by every step, from every state that meets it. -/
def Obligations.StepKeepsInvariant : Prop :=
  ∀ s t : State, State.Inv s → step s = .next t → State.Inv t

/-- No step changes the geometry or what the constant registers read as (10_state.md R22, R46; log entry 1). -/
def Obligations.GeometryAndConstantsNeverChange : Prop :=
  ∀ s t : State, step s = .next t → t.cfg = s.cfg ∧
    ∀ r ∈ ([.id, .ctrl, .inDim, .factor, .outDim, .inSize, .outSize] : List Reg), readReg t r = readReg s r

/-! ### Encoding -/

/-- Decoder and encoder agree, both ways: every well-formed instruction comes back from its request,
and every request that decodes is its instruction's encoding, up to the WDATA a read ignores
(30_encoding.md R81, R83, R85, R86). -/
def Obligations.DecodeAndEncodeAgree : Prop :=
  (∀ i : Instr, i.wellFormed = true → decode (encode i) = .ok i) ∧
  (∀ (h : Hrd) (i : Instr), decode h = .ok i →
    i.wellFormed = true ∧ (encode i).kind = h.kind ∧ (encode i).addr = h.addr ∧
    (h.kind.getLsbD 2 = true → (encode i).wdata = h.wdata) ∧
    (h.kind.getLsbD 2 = false → (encode i).wdata = 0))

/-- 30_encoding.md R83: the rows of the KIND table with their SPACE, WR and SIZE, and every KIND not in
it is illegal. At CTRL's offset the model decodes a REG_WRITE that carries a command word to that
command's constructor, whose encoding is the request itself (log entry 10). -/
def Obligations.KindTableDecodes : Prop :=
  (∀ a v : Word,
    decode ⟨0x02, a, v⟩ = .ok (.regRead a) ∧ (a ≠ 0x04 → decode ⟨0x06, a, v⟩ = .ok (.regWrite a v)) ∧
    decode ⟨0x08, a, v⟩ = .ok (.inReadB a) ∧ decode ⟨0x09, a, v⟩ = .ok (.inReadH a) ∧
    decode ⟨0x0A, a, v⟩ = .ok (.inReadW a) ∧ decode ⟨0x0C, a, v⟩ = .ok (.inWriteB a v) ∧
    decode ⟨0x0D, a, v⟩ = .ok (.inWriteH a v) ∧ decode ⟨0x0E, a, v⟩ = .ok (.inWriteW a v) ∧
    decode ⟨0x10, a, v⟩ = .ok (.outReadB a) ∧ decode ⟨0x11, a, v⟩ = .ok (.outReadH a) ∧
    decode ⟨0x12, a, v⟩ = .ok (.outReadW a)) ∧
  (∀ v : Word, ∃ i, decode ⟨0x06, 0x04, v⟩ = .ok i ∧ encode i = ⟨0x06, 0x04, v⟩) ∧
  (∀ k : Kind, k.bits ∈ legalKinds ∧ k.size = 2 ^ (k.bits.toNat % 4) ∧
    (k.bits.toNat / 8 = match k.space with
      | .reg => 0
      | .inp => 1
      | .out => 2) ∧
    (k.bits.getLsbD 2 = true ↔ k = .regWrite ∨ k = .inWriteB ∨ k = .inWriteH ∨ k = .inWriteW)) ∧
  (∀ h : Hrd, h.kind ∉ legalKinds → decode h = .error .illegalKind)

/-- 30_encoding.md R85: the CTRL words, decoded from all 32 bits of WDATA; any other value is the
illegal command, which is a REG_WRITE to CTRL with that word. -/
def Obligations.CtrlWordTableDecodes : Prop :=
  decode ⟨0x06, 0x04, 0x00000000⟩ = .ok .nop ∧ decode ⟨0x06, 0x04, 0x00000001⟩ = .ok .startAvg ∧
  decode ⟨0x06, 0x04, 0x00000002⟩ = .ok .startSkip ∧ decode ⟨0x06, 0x04, 0x00000003⟩ = .ok .clearStatus ∧
  (∀ w : Word, w ≠ 0 → w ≠ 1 → w ≠ 2 → w ≠ 3 → decode ⟨0x06, 0x04, w⟩ = .ok (.regWrite 0x04 w))

/-- A few words of the opcode table, written out from 30_encoding.md R83 and R85. How decodeTableWord
numbers them is the model's choice (DESIGN CHOICE, log entry 6): KIND in bits 4:0, the absent ADDR and
WDATA as 0, and a 32-bit word as a CTRL word carried by a REG_WRITE to CTRL. -/
def Obligations.SampleTableWordsDecode : Prop :=
  decodeTableWord 8 0b00010 = some (.regRead 0) ∧ decodeTableWord 8 0b00110 = some (.regWrite 0 0) ∧
  decodeTableWord 8 0b01001 = some (.inReadH 0) ∧ decodeTableWord 8 0b01110 = some (.inWriteW 0 0) ∧
  decodeTableWord 8 0b10000 = some (.outReadB 0) ∧ decodeTableWord 8 0b10100 = none ∧
  decodeTableWord 32 0x00000001 = some .startAvg ∧ decodeTableWord 32 0x00000003 = some .clearStatus

/-- 30_encoding.md R90, R91: the requests of the host-script lines and pseudo-instructions. That a line
is a list of requests, that wait is k reads of STATUS for a given k ≥ 1, and that A+j is reduced mod
2^32 where it passes 0xFFFFFFFF, are the model's choices (DESIGN CHOICE, log entry 11). -/
def Obligations.ScriptLinesExpand : Prop :=
  (∀ a v : Word,
    (ScriptLine.rreg a).requests = [⟨0x02, a, 0⟩] ∧ (ScriptLine.wreg a v).requests = [⟨0x06, a, v⟩] ∧
    (ScriptLine.rinB a).requests = [⟨0x08, a, 0⟩] ∧ (ScriptLine.rinH a).requests = [⟨0x09, a, 0⟩] ∧
    (ScriptLine.rinW a).requests = [⟨0x0A, a, 0⟩] ∧ (ScriptLine.winB a v).requests = [⟨0x0C, a, v⟩] ∧
    (ScriptLine.winH a v).requests = [⟨0x0D, a, v⟩] ∧ (ScriptLine.winW a v).requests = [⟨0x0E, a, v⟩] ∧
    (ScriptLine.routB a).requests = [⟨0x10, a, 0⟩] ∧ (ScriptLine.routH a).requests = [⟨0x11, a, 0⟩] ∧
    (ScriptLine.routW a).requests = [⟨0x12, a, 0⟩]) ∧
  ScriptLine.nop.requests = [encode .nop] ∧ ScriptLine.startAvg.requests = [encode .startAvg] ∧
  ScriptLine.startSkip.requests = [encode .startSkip] ∧ ScriptLine.clear.requests = [encode .clearStatus] ∧
  (∀ k, 1 ≤ k → (ScriptLine.wait k).requests = List.replicate k (encode (.regRead 0x08))) ∧
  (∀ (a : Word) (bytes : List Word) (j : Nat) (hj : j < bytes.length),
    (ScriptLine.load a bytes).requests.length = bytes.length ∧
    (ScriptLine.load a bytes).requests[j]? = some (encode (.inWriteB (a + BitVec.ofNat 32 j) bytes[j]))) ∧
  (∀ (a : Word) (n : Nat) (v : Word) (j : Nat), j < n →
    (ScriptLine.fill a n v).requests.length = n ∧
    (ScriptLine.fill a n v).requests[j]? = some (encode (.inWriteB (a + BitVec.ofNat 32 j) v)))

/-! ### The step -/

/-- A step serves the request in front of the pending inputs by running the instruction it decodes to
(40_host_transactions.md R100; log entries 2, 8). -/
def Obligations.StepRunsDecodedInstruction : Prop :=
  (∀ (s : State) (h : Hrd) (rest : List Input) (i : Instr), s.inputs = .request h :: rest →
    decode h = .ok i → step s = exec i { s with inputs := rest }) ∧
  (∀ (s : State) (i : Instr), i.wellFormed = true →
    step { s with inputs := .request (encode i) :: s.inputs } = exec i s)

/-- The engine's turn (41_commands.md R127, R130): OPERATION is enabled exactly when BUSY = 1. An
engine entry while idle, and an idle machine with nothing pending, change nothing; with nothing
pending and BUSY = 1 the operation runs. These two are the model's choice (log entry 2). -/
def Obligations.EngineTurns : Prop :=
  (∀ (s : State) (rest : List Input), s.inputs = .engine :: rest →
    (s.status.busy = true → step s = operation { s with inputs := rest }) ∧
    (s.status.busy = false → step s = .next { s with inputs := rest })) ∧
  (∀ s : State, s.inputs = [] →
    (s.status.busy = true → step s = operation s) ∧ (s.status.busy = false → step s = .next s))

/-- No step refuses, and the only fault is a read of an unwritten cell that is one of its memory's
cells (20_memory.md R65; 93_implementation_defined.md I1, I2). -/
def Obligations.StepStopsOnlyOnUnwrittenCells : Prop :=
  (∀ (s : State) (r : Refusal), step s ≠ .refused r) ∧
  (∀ (s : State) (m : FrameMem) (a : Nat), step s = .fault (.unwrittenRead m a) →
    match m with
    | .inp => Memory.read s.inMem a = none ∧ a < inFrameBytes s.cfg.geom
    | .out => Memory.read s.outMem a = none ∧ a < outFrameBytes s.cfg.geom)

/-! ### Bus errors and the interlock -/

/-- 40_host_transactions.md R112, R113 and 60_exceptions.md R211, R212: a request whose first failing check is
this reason ends in that bus error and changes nothing else, and the host sees RESP = BUSERR and RDATA = 0
whatever the reason; a request that fails no check gets OKAY, unless it is a read of an unwritten
cell, which is the model fault. -/
def Obligations.BusErrorIsFirstFailingCheck : Prop :=
  ∀ (s : State) (h : Hrd) (rest : List Input), s.inputs = .request h :: rest →
    (∀ reason, getsReason s h reason →
      step s = .next (rejected { s with inputs := rest } reason h.kind h.addr) ∧
      (Response.busError ⟨reason, h.kind, h.addr⟩).isOkay = false ∧
      (Response.busError ⟨reason, h.kind, h.addr⟩).rdata = 0) ∧
    ((∀ reason, ¬ getsReason s h reason) →
      (∃ t v, step s = .next t ∧ t.response = some (.okay v)) ∨ ∃ m a, step s = .fault (.unwrittenRead m a))

/-- The reason the model records for a request is r exactly when r is the first failing check of
R112's order, so no request gets two reasons (40_host_transactions.md R112, 60_exceptions.md R215): the
checks of a legal kind (checkRequest) and the whole transaction (serveRequest), illegal kinds included. -/
def Obligations.BusErrorReasonsExclusive : Prop :=
  ∀ (s : State) (h : Hrd) (r : BusReason),
    (∀ k : Kind, k.bits = h.kind → (checkRequest s k h.addr = some r ↔ getsReason s h r)) ∧
    ((∃ (t : State) (info : BusErrorInfo), serveRequest h s = .next t ∧ t.response = some (.busError info) ∧
      info.reason = r) ↔ getsReason s h r)

/-- 40_host_transactions.md R111: each of the 21 illegal kinds gets IllegalKind whatever ADDR and WDATA
are; these are the KIND values that 30_encoding.md R83 does not list. -/
def Obligations.IllegalKindsRejected : Prop :=
  illegalKinds.length = 21 ∧ (∀ k : BitVec 5, k ∈ illegalKinds ↔ k ∉ legalKinds) ∧
  ∀ (s : State) (k : BitVec 5) (addr wdata : Word), k ∈ illegalKinds →
    serveRequest ⟨k, addr, wdata⟩ s = .next (rejected s .illegalKind k addr)

/-- 40_host_transactions.md R101: while BUSY = 1, the interlocked requests get Busy and have no effect,
and REG_READ of every register, REG_WRITE of IRQ_EN and IN reads of written cells are still served. -/
def Obligations.BusyInterlock : Prop :=
  ∀ s : State, s.status.busy = true →
    (∀ v, exec (.regWrite 0x04 v) s = .next (rejected s .busy 0x06 0x04)) ∧
    (∀ i ∈ ([.nop, .startAvg, .startSkip, .clearStatus] : List Instr),
      exec i s = .next (rejected s .busy 0x06 0x04)) ∧
    (∀ v, exec (.regWrite 0x10 v) s = .next (rejected s .busy 0x06 0x10)) ∧
    (∀ (w : Width) (a v : Word), a.toNat + w.bytes ≤ inFrameBytes s.cfg.geom → a.toNat % w.bytes = 0 →
      exec (inWrite w a v) s = .next (rejected s .busy (inWriteKind w) a)) ∧
    (∀ (w : Width) (a : Word), a.toNat + w.bytes ≤ outFrameBytes s.cfg.geom → a.toNat % w.bytes = 0 →
      exec (outRead w a) s = .next (rejected s .busy (outReadKind w) a)) ∧
    (∀ a : Word, a.toNat % 4 = 0 → a.toNat ≤ 0x28 → ∃ v, exec (.regRead a) s = .next (accepted s v)) ∧
    (∀ v : Word, exec (.regWrite 0x0C v) s = .next (accepted { s with irqEn := v.getLsbD 0 } 0)) ∧
    (∀ (w : Width) (a : Word), a.toNat + w.bytes ≤ inFrameBytes s.cfg.geom → a.toNat % w.bytes = 0 →
      (∀ k, k < w.bytes → (Memory.read s.inMem (a.toNat + k)).isSome = true) →
      ∃ v, exec (inRead w a) s = .next (accepted s v)) ∧
    (∀ (a v : Word), a ∈ roOffsets → exec (.regWrite a v) s = .next (rejected s .readOnly 0x06 a)) ∧
    (∀ (w : Width) (a v : Word), a.toNat + w.bytes > inFrameBytes s.cfg.geom →
      exec (inWrite w a v) s = .next (rejected s .outOfRange (inWriteKind w) a)) ∧
    (∀ (w : Width) (a v : Word), a.toNat + w.bytes ≤ inFrameBytes s.cfg.geom → a.toNat % w.bytes ≠ 0 →
      exec (inWrite w a v) s = .next (rejected s .misaligned (inWriteKind w) a)) ∧
    (∀ (w : Width) (a : Word), a.toNat + w.bytes > outFrameBytes s.cfg.geom →
      exec (outRead w a) s = .next (rejected s .outOfRange (outReadKind w) a)) ∧
    (∀ (w : Width) (a : Word), a.toNat + w.bytes ≤ outFrameBytes s.cfg.geom → a.toNat % w.bytes ≠ 0 →
      exec (outRead w a) s = .next (rejected s .misaligned (outReadKind w) a))

/-! ### Registers -/

/-- 10_state.md R32: the two forms of the STATUS word, and its reserved bits read as 0. -/
def Obligations.StatusWordLayout : Prop :=
  ∀ st : Status,
    st.word = (0#18 ++ st.errPlane.bits ++ 0#2 ++ st.mode.bits ++ 0#1 ++ st.errCode.bits ++ 0#1 ++
      BitVec.ofBool st.error ++ BitVec.ofBool st.done ++ BitVec.ofBool st.busy : BitVec 32) ∧
    st.word = (BitVec.ofBool st.busy).setWidth 32 ||| (BitVec.ofBool st.done).setWidth 32 <<< 1 |||
      (BitVec.ofBool st.error).setWidth 32 <<< 2 ||| st.errCode.bits.setWidth 32 <<< 4 |||
      st.mode.bits.setWidth 32 <<< 8 ||| st.errPlane.bits.setWidth 32 <<< 12 ∧
    (∀ i ∈ ([3, 7, 10, 11] ++ List.range' 14 18 : List Nat), st.word.getLsbD i = false)

/-- 40_host_transactions.md R102: what a REG_READ returns at each of the eleven offsets, in every state,
with no state written; and its two bus errors. -/
def Obligations.RegReadReturnsRegister : Prop :=
  ∀ s : State,
    let g := s.cfg.geom;
    exec (.regRead 0x00) s = .next (accepted s 0x4E563132) ∧
    exec (.regRead 0x04) s = .next (accepted s 0x00000000) ∧
    exec (.regRead 0x08) s = .next (accepted s (0#18 ++ s.status.errPlane.bits ++ 0#2 ++ s.status.mode.bits ++
      0#1 ++ s.status.errCode.bits ++ 0#1 ++ BitVec.ofBool s.status.error ++ BitVec.ofBool s.status.done ++
      BitVec.ofBool s.status.busy)) ∧
    exec (.regRead 0x0C) s = .next (accepted s (BitVec.ofNat 32 s.irqEn.toNat)) ∧
    exec (.regRead 0x10) s = .next (accepted s s.inLen) ∧
    exec (.regRead 0x14) s = .next (accepted s s.outLen) ∧
    exec (.regRead 0x18) s = .next (accepted s (BitVec.ofNat 32 (g.inH * 65536 + g.inW))) ∧
    exec (.regRead 0x1C) s = .next (accepted s (BitVec.ofNat 32 (g.fy * 65536 + g.fx))) ∧
    exec (.regRead 0x20) s = .next (accepted s (BitVec.ofNat 32 (g.inH / g.fy * 65536 + g.inW / g.fx))) ∧
    exec (.regRead 0x24) s = .next (accepted s (BitVec.ofNat 32 (g.inW * g.inH * 3 / 2))) ∧
    exec (.regRead 0x28) s = .next (accepted s (BitVec.ofNat 32 (g.inW / g.fx * (g.inH / g.fy) * 3 / 2))) ∧
    (∀ a : Word, a.toNat > 0x28 → exec (.regRead a) s = .next (rejected s .outOfRange 0x02 a)) ∧
    (∀ a : Word, a.toNat ≤ 0x28 → a.toNat % 4 ≠ 0 → exec (.regRead a) s = .next (rejected s .misaligned 0x02 a))

/-- 40_host_transactions.md R105: a REG_WRITE to IRQ_EN, whether BUSY is 0 or 1: EN takes WDATA[0], RDATA is
0, nothing else is written, and `irq` follows at once. -/
def Obligations.IrqEnWrite : Prop :=
  (∀ (s : State) (v : Word),
    exec (.regWrite 0x0C v) s = .next (accepted { s with irqEn := v.getLsbD 0 } 0) ∧
    (accepted { s with irqEn := v.getLsbD 0 } 0).irq = (s.status.done && v.getLsbD 0)) ∧
  (∀ s t : State, exec (.regWrite 0x0C 0xFFFFFFFF) s = .next t →
    t.irqEn = true ∧ exec (.regRead 0x0C) t = .next (accepted t 0x00000001))

/-- 40_host_transactions.md R106: a REG_WRITE to IN_LEN stores any 32-bit value unchanged, and it reads
back; with BUSY = 1 it gets Busy; a length other than IN_FRAME_BYTES makes the next operation fail
with INPUT_SIZE. -/
def Obligations.InLenWrite : Prop :=
  ∀ (s : State) (v : Word),
    (s.status.busy = false →
      exec (.regWrite 0x10 v) s = .next (accepted { s with inLen := v } 0) ∧
      exec (.regRead 0x10) (accepted { s with inLen := v } 0) =
        .next (accepted { s with inLen := v } v)) ∧
    (s.status.busy = true → exec (.regWrite 0x10 v) s = .next (rejected s .busy 0x06 0x10)) ∧
    (s.status.busy = true → s.inLen.toNat > inCap s.cfg.geom →
      engineStep s = .next { s with status := failedStatus .inputSize .none s.status.mode })

/-- 40_host_transactions.md R107: a REG_WRITE to a read-only register gets ReadOnly whether BUSY is 0 or 1,
and writes no state. -/
def Obligations.ReadOnlyRegisterWrite : Prop :=
  ∀ (s : State) (a v : Word), a ∈ roOffsets → exec (.regWrite a v) s = .next (rejected s .readOnly 0x06 a)

/-! ### Commands -/

/-- 41_commands.md R120 and 40_host_transactions.md R104: a REG_WRITE to CTRL runs the command its word
names, and with BUSY = 1 gets Busy. -/
def Obligations.CtrlWriteRunsCommand : Prop :=
  ∀ s : State,
    exec (.regWrite 0x04 0x00000000) s = exec .nop s ∧
    exec (.regWrite 0x04 0x00000001) s = exec .startAvg s ∧
    exec (.regWrite 0x04 0x00000002) s = exec .startSkip s ∧
    exec (.regWrite 0x04 0x00000003) s = exec .clearStatus s ∧
    (∀ w : Word, w ≠ 0 → w ≠ 1 → w ≠ 2 → w ≠ 3 → s.status.busy = false →
      exec (.regWrite 0x04 w) s =
        .next (accepted { s with status := failedStatus .usage .none .none } 0)) ∧
    (∀ w : Word, s.status.busy = true → exec (.regWrite 0x04 w) s = .next (rejected s .busy 0x06 0x04))

/-- 41_commands.md R122: NOP writes no state; while BUSY = 1 even a NOP gets Busy. -/
def Obligations.NopCompletes : Prop :=
  ∀ s : State,
    (s.status.busy = false → exec .nop s = .next (accepted s 0)) ∧
    (s.status.busy = true → exec .nop s = .next (rejected s .busy 0x06 0x04))

/-- 41_commands.md R123: START_AVG from any idle state, an error completion included; a length of 0 is
accepted, and every validation failure appears at the engine step. -/
def Obligations.StartAvgCompletes : Prop :=
  ∀ s : State, s.status.busy = false →
    ∃ t, exec .startAvg s = .next t ∧
      t = accepted { s with status := ⟨true, false, false, .none, .average, .none⟩, outLen := 0 } 0 ∧
      t.status.word = 0x00000101 ∧ t.outLen = 0 ∧ t.irq = false ∧ engineStep t = operation t ∧
      (s.inLen = 0 → engineStep t = .next { t with status := failedStatus .inputSize .none .average }) ∧
      (∀ code plane, validate s.cfg.geom s.inLen = some (code, plane) →
        engineStep t = .next { t with status := failedStatus code plane .average })

/-- 41_commands.md R124: START_SKIP from any idle state; its engine step validates exactly as START_AVG's. -/
def Obligations.StartSkipCompletes : Prop :=
  ∀ s : State, s.status.busy = false →
    ∃ t, exec .startSkip s = .next t ∧
      t = accepted { s with status := ⟨true, false, false, .none, .skip, .none⟩, outLen := 0 } 0 ∧
      t.status.word = 0x00000201 ∧ t.outLen = 0 ∧ t.irq = false ∧ engineStep t = operation t ∧
      (∀ code plane, validate s.cfg.geom s.inLen = some (code, plane) →
        engineStep t = .next { t with status := failedStatus code plane .skip })

/-- 41_commands.md R125: CLEAR_STATUS clears the record and recovers nothing else. -/
def Obligations.ClearStatusCompletes : Prop :=
  ∀ s : State, s.status.busy = false →
    ∃ t, exec .clearStatus s = .next t ∧
      t = accepted { s with status := ⟨false, false, false, .none, .none, .none⟩ } 0 ∧
      t.status.word = 0x00000000 ∧ t.irq = false

/-- 41_commands.md R126: an illegal command completes at once with the USAGE op error and MODE 0. -/
def Obligations.IllegalCommandReportsUsage : Prop :=
  ∀ (s : State) (w : Word), s.status.busy = false → w ≠ 0 → w ≠ 1 → w ≠ 2 → w ≠ 3 →
    ∃ t, exec (.regWrite 0x04 w) s = .next t ∧
      t = accepted { s with status := failedStatus .usage .none .none } 0 ∧
      t.status.word = 0x00000016 ∧ t.irq = s.irqEn

/-! ### The frame memories -/

/-- 40_host_transactions.md R108: an IN read returns the little-endian value, zero-extended, whether BUSY
is 0 or 1; an unwritten cell is the model fault at the lowest such address; the two bus errors. -/
def Obligations.InReadReturnsBytes : Prop :=
  ∀ (s : State) (w : Width) (a : Word),
    (a.toNat + w.bytes ≤ inCap s.cfg.geom → a.toNat % w.bytes = 0 →
      (∀ bytes : Nat → Byte, (∀ k, k < w.bytes → Memory.read s.inMem (a.toNat + k) = some (bytes k)) →
        exec (inRead w a) s = .next (accepted s (wordOf bytes w.bytes))) ∧
      (∀ k, k < w.bytes → Memory.read s.inMem (a.toNat + k) = none →
        (∀ j, j < k → (Memory.read s.inMem (a.toNat + j)).isSome = true) →
        exec (inRead w a) s = .fault (.unwrittenRead .inp (a.toNat + k)))) ∧
    (a.toNat + w.bytes > inCap s.cfg.geom → exec (inRead w a) s = .next (rejected s .outOfRange (inReadKind w) a)) ∧
    (a.toNat + w.bytes ≤ inCap s.cfg.geom → a.toNat % w.bytes ≠ 0 →
      exec (inRead w a) s = .next (rejected s .misaligned (inReadKind w) a))

/-- 40_host_transactions.md R109: an IN write stores byte lane k of WDATA at ADDR + k, leaves every other
byte of IN and every other part of the state alone, and ignores WDATA above the width; its bus errors. -/
def Obligations.InWriteStoresBytes : Prop :=
  ∀ (s : State) (w : Width) (a v : Word),
    (a.toNat + w.bytes ≤ inCap s.cfg.geom → a.toNat % w.bytes = 0 → s.status.busy = false →
      ∃ m, exec (inWrite w a v) s = .next (accepted { s with inMem := m } 0) ∧
        (∀ k, k < w.bytes → Memory.read m (a.toNat + k) = some (lane v k)) ∧
        (∀ x, x < a.toNat ∨ a.toNat + w.bytes ≤ x → Memory.read m x = Memory.read s.inMem x)) ∧
    (a.toNat + w.bytes > inCap s.cfg.geom → exec (inWrite w a v) s = .next (rejected s .outOfRange (inWriteKind w) a)) ∧
    (a.toNat + w.bytes ≤ inCap s.cfg.geom → a.toNat % w.bytes ≠ 0 →
      exec (inWrite w a v) s = .next (rejected s .misaligned (inWriteKind w) a)) ∧
    (a.toNat + w.bytes ≤ inCap s.cfg.geom → a.toNat % w.bytes = 0 → s.status.busy = true →
      exec (inWrite w a v) s = .next (rejected s .busy (inWriteKind w) a))

/-- What an IN write stored, an IN read of the same width and address returns: the low 8n bits of
WDATA, zero-extended (20_memory.md R61, 30_encoding.md R86). -/
def Obligations.WriteThenReadReturnsValue : Prop :=
  ∀ (s t : State) (w : Width) (a v : Word), a.toNat + w.bytes ≤ inCap s.cfg.geom → a.toNat % w.bytes = 0 →
    s.status.busy = false → exec (inWrite w a v) s = .next t →
    exec (inRead w a) t = .next (accepted t (BitVec.ofNat 32 (v.toNat % 2 ^ (8 * w.bytes))))

/-- 40_host_transactions.md R110: an OUT read returns the little-endian value, zero-extended, while BUSY =
0; an unwritten cell is the model fault at the lowest such address; the three bus errors. -/
def Obligations.OutReadReturnsBytes : Prop :=
  ∀ (s : State) (w : Width) (a : Word),
    (a.toNat + w.bytes ≤ outCap s.cfg.geom → a.toNat % w.bytes = 0 → s.status.busy = false →
      (∀ bytes : Nat → Byte, (∀ k, k < w.bytes → Memory.read s.outMem (a.toNat + k) = some (bytes k)) →
        exec (outRead w a) s = .next (accepted s (wordOf bytes w.bytes))) ∧
      (∀ k, k < w.bytes → Memory.read s.outMem (a.toNat + k) = none →
        (∀ j, j < k → (Memory.read s.outMem (a.toNat + j)).isSome = true) →
        exec (outRead w a) s = .fault (.unwrittenRead .out (a.toNat + k)))) ∧
    (a.toNat + w.bytes > outCap s.cfg.geom → exec (outRead w a) s = .next (rejected s .outOfRange (outReadKind w) a)) ∧
    (a.toNat + w.bytes ≤ outCap s.cfg.geom → a.toNat % w.bytes ≠ 0 →
      exec (outRead w a) s = .next (rejected s .misaligned (outReadKind w) a)) ∧
    (a.toNat + w.bytes ≤ outCap s.cfg.geom → a.toNat % w.bytes = 0 → s.status.busy = true →
      exec (outRead w a) s = .next (rejected s .busy (outReadKind w) a))

/-! ### Frames and whole-machine rules -/

/-- The frame of every instruction: what it leaves unchanged when exec gives a next state. Memory is
said through the read of one byte; IN_WRITE stores to the bytes `storedBytes` gives. -/
def Obligations.InstructionFrame : Prop :=
  ∀ (i : Instr) (s t : State), exec i s = .next t →
    t.cfg = s.cfg ∧ t.inputs = s.inputs ∧ (∀ x, Memory.read t.outMem x = Memory.read s.outMem x) ∧
    (match storedBytes i with
      | some (a, n) => ∀ x, x < a ∨ a + n ≤ x → Memory.read t.inMem x = Memory.read s.inMem x
      | none => ∀ x, Memory.read t.inMem x = Memory.read s.inMem x) ∧
    ((∀ v, i ≠ .regWrite 0x0C v) → t.irqEn = s.irqEn) ∧
    ((∀ v, i ≠ .regWrite 0x10 v) → t.inLen = s.inLen) ∧
    (¬ writesCtrl i → t.status = s.status ∧ t.outLen = s.outLen) ∧
    (i = .nop → t.status = s.status ∧ t.outLen = s.outLen) ∧
    (i = .clearStatus → t.outLen = s.outLen) ∧
    (∀ w : Word, i = .regWrite 0x04 w → w.toNat ≠ 1 → w.toNat ≠ 2 → t.outLen = s.outLen)

/-- 20_memory.md R66: no read has a side effect, reads are idempotent, and writes to IN cells, IN_LEN and
IRQ_EN only store a value. -/
def Obligations.ReadsHaveNoSideEffect : Prop :=
  (∀ (i : Instr) (s t : State), isRead i = true → exec i s = .next t →
    (∃ r, t = { s with response := some r }) ∧ exec i t = .next t ∧
    ∀ j u, isRead j = true → exec j t = .next u → exec i u = .next t) ∧
  (∀ (w : Width) (a v : Word) (s t : State), exec (inWrite w a v) s = .next t →
    t = { s with inMem := t.inMem, response := t.response }) ∧
  (∀ (v : Word) (s t : State), exec (.regWrite 0x10 v) s = .next t →
    t = { s with inLen := t.inLen, response := t.response }) ∧
  (∀ (v : Word) (s t : State), exec (.regWrite 0x0C v) s = .next t →
    t = { s with irqEn := t.irqEn, response := t.response })

/-- 70_reset_and_hazards.md R248: IN, IN_LEN and IRQ_EN are changed only by host writes and reset; OUT is
changed only by the packer, in an operation that passes validation, and by reset. -/
def Obligations.OnlyTheseStepsChangeState : Prop :=
  ∀ s t : State, step s = .next t → (∀ rest, s.inputs ≠ .reset :: rest) →
    (t.inMem ≠ s.inMem → ∃ h rest, s.inputs = .request h :: rest ∧ s.status.busy = false ∧
      h.kind ∈ ([0x0C, 0x0D, 0x0E] : List (BitVec 5))) ∧
    (t.inLen ≠ s.inLen → ∃ h rest, s.inputs = .request h :: rest ∧ s.status.busy = false ∧
      h.kind = 0x06 ∧ h.addr = 0x10) ∧
    (t.irqEn ≠ s.irqEn → ∃ h rest, s.inputs = .request h :: rest ∧ h.kind = 0x06 ∧ h.addr = 0x0C) ∧
    (t.outMem ≠ s.outMem → s.status.busy = true ∧ validFrame s ∧ t.status.done = true ∧
      (s.inputs = [] ∨ ∃ rest, s.inputs = .engine :: rest))

/-- BUSY leaves 1 only by the engine's completion or by reset, and while it stays 1 the operation's
inputs, MODE and OUT stay as they are (20_memory.md R70, R71; 40_host_transactions.md R101; 10_state.md R30). -/
def Obligations.BusyWindowFreezesOperation : Prop :=
  ∀ s t : State, s.status.busy = true → step s = .next t →
    (∀ h rest, s.inputs = .request h :: rest →
      t.status = s.status ∧ t.inMem = s.inMem ∧ t.inLen = s.inLen ∧ t.outMem = s.outMem ∧ t.outLen = s.outLen) ∧
    (t.status.busy = true → ∃ h rest, s.inputs = .request h :: rest)

/-- 60_exceptions.md R219: the level of irq, and what makes it rise: the engine's completion, an illegal
command, or setting EN; a bus error does not. -/
def Obligations.IrqLevel : Prop :=
  (∀ s : State, s.irq = ((readReg s .status).getLsbD 1 && (readReg s .irqEn).getLsbD 0)) ∧
  (∀ s t : State, step s = .next t → s.irq = false → t.irq = true →
    (s.status.busy = true ∧ t.status.busy = false ∧ (s.inputs = [] ∨ ∃ rest, s.inputs = .engine :: rest)) ∨
    (∃ h rest, s.inputs = .request h :: rest ∧ h.kind = 0x06 ∧
      ((h.addr = 0x04 ∧ h.wdata.toNat > 3 ∧ t.status.errCode = .usage) ∨
        (h.addr = 0x0C ∧ h.wdata.getLsbD 0 = true)))) ∧
  (∀ s t : State, ∀ info, step s = .next t → (∃ h rest, s.inputs = .request h :: rest) →
    t.response = some (.busError info) → t.irq = s.irq)

/-- 60_exceptions.md R216: an op error is left only by CLEAR_STATUS, a new START or reset, each of which
leaves it; after an error every command is accepted, and a new operation starts from IN and IN_LEN
as they stand. -/
def Obligations.OpErrorLeftOnlyByHostAction : Prop :=
  (∀ s t : State, s.status.Consistent → s.status.error = true → step s = .next t → t.status.error = false →
    (∃ rest, s.inputs = .reset :: rest) ∨
    (∃ h rest, s.inputs = .request h :: rest ∧ h.kind = 0x06 ∧ h.addr = 0x04 ∧
      h.wdata ∈ ([0x1, 0x2, 0x3] : List Word))) ∧
  (∀ s : State, s.status.Consistent → s.status.error = true →
    (∃ t, exec .clearStatus s = .next t ∧ t.status.error = false ∧ t.inMem = s.inMem ∧ t.inLen = s.inLen) ∧
    (∃ t, exec .startAvg s = .next t ∧ t.status.error = false ∧ t.inMem = s.inMem ∧ t.inLen = s.inLen) ∧
    (∃ t, exec .startSkip s = .next t ∧ t.status.error = false ∧ t.inMem = s.inMem ∧ t.inLen = s.inLen) ∧
    (∃ t, step { s with inputs := .reset :: s.inputs } = .next t ∧ t.status.error = false) ∧
    (∃ t, exec .nop s = .next t ∧ t.response = some (.okay 0)) ∧
    ∀ w : Word, w.toNat > 3 → ∃ t, exec (.regWrite 0x04 w) s = .next t ∧ t.response = some (.okay 0))

/-! ### Validation -/

/-- 42_plane_splitter.md R148 with R140, R141, R145, R146: the first failing check of an operation, and
the STATUS it leaves (60_exceptions.md R214); IN, OUT, OUT_LEN, IN_LEN and IRQ_EN are untouched. -/
def Obligations.ValidationFailureRecorded : Prop :=
  ∀ s : State, s.status.busy = true →
    let g := s.cfg.geom;
    (¬ sizeHolds s → engineStep s = .next { s with status := failedStatus .inputSize .none s.status.mode }) ∧
    (sizeHolds s → ¬ formatHolds g →
      engineStep s = .next { s with status := failedStatus .shapeDivisibility .format s.status.mode }) ∧
    (sizeHolds s → formatHolds g → ¬ lumaHolds g →
      engineStep s = .next { s with status := failedStatus .shapeDivisibility .luma s.status.mode }) ∧
    (sizeHolds s → formatHolds g → lumaHolds g → ¬ chromaHolds g →
      engineStep s = .next { s with status := failedStatus .shapeDivisibility .chroma s.status.mode }) ∧
    (validFrame s ↔ validate g s.inLen = none)

/-- 60_exceptions.md R214: the STATUS word of every op error, in either mode. -/
def Obligations.OpErrorStatusWords : Prop :=
  (failedStatus .usage .none .none).word = 0x00000016 ∧
  (failedStatus .inputSize .none .average).word = 0x00000126 ∧
  (failedStatus .inputSize .none .skip).word = 0x00000226 ∧
  (failedStatus .shapeDivisibility .format .average).word = 0x00003136 ∧
  (failedStatus .shapeDivisibility .format .skip).word = 0x00003236 ∧
  (failedStatus .shapeDivisibility .luma .average).word = 0x00001136 ∧
  (failedStatus .shapeDivisibility .luma .skip).word = 0x00001236 ∧
  (failedStatus .shapeDivisibility .chroma .average).word = 0x00002136 ∧
  (failedStatus .shapeDivisibility .chroma .skip).word = 0x00002236 ∧
  (failedStatus .internalSize .none .average).word = 0x00000146 ∧
  (failedStatus .internalSize .none .skip).word = 0x00000246

/-- 60_exceptions.md R213: the error completion writes these STATUS fields, keeps MODE, writes nothing
else, and raises `irq` where it is enabled; for INTERNAL_SIZE, OUT and OUT_LEN hold what the packer
wrote. -/
def Obligations.OpErrorWritesOnlyStatus : Prop :=
  ∀ (s : State) (code : ErrCode) (plane : ErrPlane), code ≠ .none →
    opError code plane s = { s with status := ⟨false, true, true, code, s.status.mode, plane⟩ } ∧
    (opError code plane s).irq = s.irqEn ∧
    ∀ p : Packed, p.count ≠ outFrameBytes s.cfg.geom →
      finish p s = { s with
        status := ⟨false, true, true, .internalSize, s.status.mode, .none⟩
        outLen := BitVec.ofNat 32 p.count
        outMem := p.mem }

/-- What holds once Validate has passed, for every legal geometry (42_plane_splitter.md R149), said of
the cells the model's luma and ChromaSample views read. -/
def Obligations.ValidGeometryFacts : Prop :=
  ∀ s : State, validFrame s →
    let g := s.cfg.geom;
    inFrameBytes g = inYBytes g + chH g * g.inW ∧
    (∀ a, a < inYBytes g → ∃! p : Nat × Nat, p.1 < g.inH ∧ p.2 < g.inW ∧ lumaAddress g p.1 p.2 = a) ∧
    (∀ a, inYBytes g ≤ a → a < inFrameBytes g →
      ∃! p : Nat × Nat × Nat, p.1 < 2 ∧ p.2.1 < chH g ∧ p.2.2 < chW g ∧
        chromaAddress g p.2.1 (2 * p.2.2 + p.1) = a) ∧
    outH g * g.fy = g.inH ∧ outW g * g.fx = g.inW ∧ outChH g * g.fy = chH g ∧ outChW g * g.fx = chW g ∧
    2 * outChH g = outH g ∧ 2 * outChW g = outW g ∧
    outFrameBytes g = outYBytes g + outChH g * outChStride g

/-- For even dimensions the model's chroma check implies its luma check, so that Validate reports
ERR_PLANE = 1 whenever the luma check fails and ERR_PLANE = 2 only when it passes and the chroma check
fails (42_plane_splitter.md R149). Both checks are the predicate of R147, which the source's 5 × 9
plane fails. -/
def Obligations.ChromaCheckImpliesLumaCheck : Prop :=
  (∀ h w fy fx : Nat, blockDiv h w fy fx = true ↔ h % fy = 0 ∧ w % fx = 0) ∧
  (∀ bx, blockDiv 5 9 3 bx = false) ∧
  ∀ c : Config, formatOk c.geom = true →
    (chromaDivOk c.geom = true → lumaDivOk c.geom = true) ∧
    ∀ len : Word, inputSizeOk c.geom len = true →
      (lumaDivOk c.geom = false ↔ validate c.geom len = some (.shapeDivisibility, .luma)) ∧
      (lumaDivOk c.geom = true ∧ chromaDivOk c.geom = false ↔
        validate c.geom len = some (.shapeDivisibility, .chroma))

/-! ### The reducers -/

/-- The block average in exact arithmetic: neither the 16-bit accumulator nor the 8-bit result ever
truncates (43_average_reducer.md R161 to R164). -/
def Obligations.BlockAverageIsExact : Prop :=
  ∀ (c : Config) (p : Plane) (f : Nat → Nat → Byte) (r col : Nat),
    (∀ i j, i < c.geom.fy → j < c.geom.fx →
      p (r * c.geom.fy + i) (col * c.geom.fx + j) = .ok (f (r * c.geom.fy + i) (col * c.geom.fx + j))) →
    blockTotal c.geom f r col ≤ 255 * blockN c.geom ∧
    roundedMean c.geom (blockTotal c.geom f r col) ≤ 255 ∧
    blockSum p c.geom.fy c.geom.fx r col = .ok (BitVec.ofNat 16 (blockTotal c.geom f r col)) ∧
    blockAvg c.geom p r col = .ok (BitVec.ofNat 8 (roundedMean c.geom (blockTotal c.geom f r col)))

/-- 43_average_reducer.md R168: the rounding divide is the nearest integer to the exact mean, a half
rounding up, for every block sum a legal block can have. -/
def Obligations.RoundingDivideIsNearest : Prop :=
  ∀ (n : Nat) (sum : Acc), 1 ≤ n → n ≤ 256 → sum.toNat ≤ 255 * n →
    ((roundDivide n sum).toNat : ℤ) = ⌊(sum.toNat : ℚ) / (n : ℚ) + 1 / 2⌋

/-- 43_average_reducer.md R169, R170: the average of a block lies between its least and greatest
sample, so a block of equal samples gives that sample. -/
def Obligations.BlockAverageWithinRange : Prop :=
  ∀ (c : Config) (p : Plane) (f : Nat → Nat → Byte) (r col : Nat) (lo hi : Byte),
    (∀ i j, i < c.geom.fy → j < c.geom.fx →
      p (r * c.geom.fy + i) (col * c.geom.fx + j) = .ok (f (r * c.geom.fy + i) (col * c.geom.fx + j)) ∧
      lo.toNat ≤ (f (r * c.geom.fy + i) (col * c.geom.fx + j)).toNat ∧
      (f (r * c.geom.fy + i) (col * c.geom.fx + j)).toNat ≤ hi.toNat) →
    ∃ b : Byte, blockAvg c.geom p r col = .ok b ∧ lo.toNat ≤ b.toNat ∧ b.toNat ≤ hi.toNat ∧ (lo = hi → b = lo)

/-! ### The operation -/

/-- 20_memory.md R65 for the engine, with the read order of 43_average_reducer.md R165, R166 and
44_skip_reducer.md R184: an operation faults exactly at the first unwritten cell of its read order. -/
def Obligations.EngineFaultsAtFirstUnwrittenCell : Prop :=
  ∀ s : State, s.status.busy = true → validFrame s → isReducing s.status.mode →
    let order := if s.status.mode = .average then averageReadOrder s.cfg.geom else skipReadOrder s.cfg.geom
    match order.find? (fun a => (Memory.read s.inMem a).isNone) with
    | some a => engineStep s = .fault (.unwrittenRead .inp a)
    | none => ∃ t, engineStep s = .next t

/-- An Average operation on a written frame: every output byte is the rounded mean of its block, each
chroma channel by itself, in the NV12 layout; OUT_LEN and STATUS report the success, and nothing
else changes (43_average_reducer.md R160 to R166; 45_output_packer.md R195, R196, R198; 41_commands.md R127, R128). -/
def Obligations.AverageOperationOutput : Prop :=
  ∀ (s : State) (px : Nat → Byte), s.status.busy = true → s.status.mode = .average → validFrame s →
    (∀ a, a < inFrameBytes s.cfg.geom → Memory.read s.inMem a = some (px a)) →
    let g := s.cfg.geom;
    ∃ out, engineStep s = .next { s with
        status := succeededStatus .average, outLen := BitVec.ofNat 32 (outFrameBytes g), outMem := out } ∧
      (∀ r c, r < outH g → c < outW g →
        Memory.read out (r * outW g + c) =
          some (BitVec.ofNat 8 (roundedMean g (blockTotal g (fun y x => px (lumaAddr g y x)) r c)))) ∧
      (∀ rc cc ch, rc < outChH g → cc < outChW g → ch < 2 →
        Memory.read out (outYBytes g + rc * outChStride g + (2 * cc + ch)) =
          some (BitVec.ofNat 8 (roundedMean g (blockTotal g (fun y x => px (chromaAddr g ch y x)) rc cc)))) ∧
      (∀ a, outFrameBytes g ≤ a → Memory.read out a = Memory.read s.outMem a) ∧
      (succeededStatus .average).word = 0x00000102

/-- A Skip operation, whose selected cells are written, copies the top-left sample of each block verbatim,
both chroma bytes from the one selected ChromaSample, in the NV12 layout; OUT_LEN and STATUS report the
success, and nothing else changes (44_skip_reducer.md R180, R181, R183; 45_output_packer.md R195, R196,
R198; 41_commands.md R127, R128). -/
def Obligations.SkipOperationOutput : Prop :=
  ∀ (s : State) (px : Nat → Byte), s.status.busy = true → s.status.mode = .skip → validFrame s →
    (∀ a ∈ skipReadOrder s.cfg.geom, Memory.read s.inMem a = some (px a)) →
    let g := s.cfg.geom;
    ∃ out, engineStep s = .next { s with
        status := succeededStatus .skip, outLen := BitVec.ofNat 32 (outFrameBytes g), outMem := out } ∧
      (∀ r c, r < outH g → c < outW g →
        Memory.read out (r * outW g + c) = some (px (r * g.fy * g.inW + c * g.fx))) ∧
      (∀ rc cc ch, rc < outChH g → cc < outChW g → ch < 2 →
        Memory.read out (outYBytes g + rc * outChStride g + (2 * cc + ch)) =
          some (px (inYBytes g + rc * g.fy * g.inW + 2 * (cc * g.fx) + ch))) ∧
      (∀ a, outFrameBytes g ≤ a → Memory.read out a = Memory.read s.outMem a) ∧
      (succeededStatus .skip).word = 0x00000202

/-- 45_output_packer.md R195, R196: where the packer puts a reduced frame of the right shape, what it
leaves alone, and the count it returns (R197). -/
def Obligations.PackerPlacesFrame : Prop :=
  ∀ (g : Geometry) (f : Reduced) (out : Memory) (y : Nat → Nat → Byte) (co : Nat → Nat → Byte × Byte),
    f.luma = (List.range (outH g)).map (fun r => (List.range (outW g)).map (y r)) →
    f.chroma = (List.range (outChH g)).map (fun rc => (List.range (outChW g)).map (co rc)) →
    let p := pack g f out;
    (∀ r c, r < outH g → c < outW g → Memory.read p.mem (r * outW g + c) = some (y r c)) ∧
    (∀ rc cc, rc < outChH g → cc < outChW g →
      Memory.read p.mem (outYBytes g + rc * outChStride g + 2 * cc) = some (co rc cc).1 ∧
      Memory.read p.mem (outYBytes g + rc * outChStride g + 2 * cc + 1) = some (co rc cc).2) ∧
    (∀ a, outYBytes g + 2 * outChH g * outChW g ≤ a → Memory.read p.mem a = Memory.read out a) ∧
    p.count = outH g * outW g + 2 * outChH g * outChW g

/-- An operation that completes without error has written every OUT cell, its packed count is
OUT_FRAME_BYTES, and INTERNAL_SIZE is never reported (45_output_packer.md R197, R198, R199). -/
def Obligations.SuccessFillsOut : Prop :=
  ∀ s t : State, s.status.busy = true → engineStep s = .next t →
    t.status.errCode ≠ .internalSize ∧
    (t.status.error = false →
      t.outLen.toNat = outFrameBytes s.cfg.geom ∧
      (∀ a, a < outFrameBytes s.cfg.geom → (Memory.read t.outMem a).isSome = true) ∧
      (∀ a, outFrameBytes s.cfg.geom ≤ a → Memory.read t.outMem a = Memory.read s.outMem a))

/-- The completion of an operation: DONE = 1, BUSY = 0, MODE kept, and ERROR = 0 exactly when Validate
passed; OUT and OUT_LEN are untouched when it failed (41_commands.md R128; 60_exceptions.md R213; 45_output_packer.md R200). -/
def Obligations.CompletionReportsValidation : Prop :=
  ∀ s t : State, s.status.busy = true → engineStep s = .next t →
    t.operationEnded ∧ t.status.mode = s.status.mode ∧ t.inMem = s.inMem ∧ t.inLen = s.inLen ∧
    t.irqEn = s.irqEn ∧ (t.mayTakeOutput s.status.mode ↔ validFrame s) ∧
    (¬ validFrame s → t.outMem = s.outMem ∧ t.outLen = s.outLen ∧ t.status.errCode ≠ .none)

/-- The output of an operation depends on the geometry, MODE, IN_LEN and IN alone: what OUT, OUT_LEN,
IRQ_EN and earlier operations left has no effect on it (43_average_reducer.md R167, 44_skip_reducer.md R185, 41_commands.md R121). -/
def Obligations.OperationDependsOnlyOnInputs : Prop :=
  ∀ s₁ s₂ t₁ : State, s₁.status.busy = true → s₂.status.busy = true → s₁.cfg = s₂.cfg →
    s₁.status.mode = s₂.status.mode → s₁.inLen = s₂.inLen → s₁.inMem = s₂.inMem → engineStep s₁ = .next t₁ →
    ∃ t₂, engineStep s₂ = .next t₂ ∧ t₁.status = t₂.status ∧
      (t₁.status.error = false → t₁.outLen = t₂.outLen ∧
        ∀ a, a < outFrameBytes s₁.cfg.geom → Memory.read t₁.outMem a = Memory.read t₂.outMem a)

/-- No value crosses from one chroma channel to the other, or between luma and chroma: two frames that
agree on the luma bytes give the same output luma bytes, whatever their chroma bytes are, and two that
agree on one channel's bytes (0 is U, 1 is V) give the same output bytes of that channel, whatever the
other channel and the luma plane hold (43_average_reducer.md R166, 44_skip_reducer.md R181). -/
def Obligations.ChromaLanesIndependent : Prop :=
  ∀ s₁ s₂ t₁ t₂ : State, s₁.status.busy = true → validFrame s₁ → isReducing s₁.status.mode →
    s₂ = { s₁ with inMem := s₂.inMem } → engineStep s₁ = .next t₁ → engineStep s₂ = .next t₂ →
    let g := s₁.cfg.geom;
    ((∀ a, a < inYBytes g → Memory.read s₁.inMem a = Memory.read s₂.inMem a) →
      ∀ a, a < outYBytes g → Memory.read t₁.outMem a = Memory.read t₂.outMem a) ∧
    (∀ ch, ch < 2 →
      (∀ rc cc, rc < chH g → cc < chW g →
        Memory.read s₁.inMem (chromaAddr g ch rc cc) = Memory.read s₂.inMem (chromaAddr g ch rc cc)) →
      ∀ rc cc, rc < outChH g → cc < outChW g →
        Memory.read t₁.outMem (outYBytes g + rc * outChStride g + (2 * cc + ch)) =
          Memory.read t₂.outMem (outYBytes g + rc * outChStride g + (2 * cc + ch)))

/-- In Skip mode the cells that are not selected have no effect, written or not (44_skip_reducer.md R184). -/
def Obligations.SkipReadsOnlySelectedCells : Prop :=
  ∀ (s : State) (m : Memory), s.status.busy = true → s.status.mode = .skip →
    (∀ a ∈ skipReadOrder s.cfg.geom, Memory.read m a = Memory.read s.inMem a) →
    (∀ f, engineStep s = .fault f → engineStep { s with inMem := m } = .fault f) ∧
    (∀ t, engineStep s = .next t → engineStep { s with inMem := m } = .next { t with inMem := m })

/-! ### Schedules -/

/-- However many host requests come between a START and its engine step, the operation ends the same
way: same STATUS, OUT, OUT_LEN, IN and IN_LEN (20_memory.md R70, R71; 41_commands.md R130). -/
def Obligations.OutcomeIndependentOfLatency : Prop :=
  ∀ (s t : State) (hs : List Hrd), s.status.busy = true →
    s.inputs = hs.map Input.request ++ [.engine] →
    Host.Core.run Sys2Proof.core (hs.length + 1) s = .next t →
    ∃ u, engineStep { s with inputs := [] } = .next u ∧ t.status = u.status ∧ t.outMem = u.outMem ∧
      t.outLen = u.outLen ∧ t.inMem = u.inMem ∧ t.inLen = u.inLen

/-- An operation completes after finitely many steps, or the run ends in the model fault of an
unwritten read: the bound is the number of pending inputs and one engine step (41_commands.md R130;
that the engine moves once nothing is pending is the model's choice, log entry 2). -/
def Obligations.BusyEventuallyEnds : Prop :=
  ∀ s : State, s.status.busy = true →
    ∃ k, k ≤ s.inputs.length + 1 ∧
      ((∃ t : State, Host.Core.run Sys2Proof.core k s = .next t ∧ t.status.busy = false) ∨
        ∃ m a, Host.Core.run Sys2Proof.core k s = .fault (Fault.unwrittenRead m a))
end

