-- ==== Sys2Proof/Laws/State.lean ====
section
/-! SUPPORT. One lemma per field per named update of the state, each true by rfl, so that no later proof
unfolds a record update. -/

namespace Sys2Proof.Machine

/-! ### okay -/

@[simp] theorem okay_cfg (v : Word) (s : State) : (okay v s).cfg = s.cfg := rfl
@[simp] theorem okay_status (v : Word) (s : State) : (okay v s).status = s.status := rfl
@[simp] theorem okay_irqEn (v : Word) (s : State) : (okay v s).irqEn = s.irqEn := rfl
@[simp] theorem okay_inLen (v : Word) (s : State) : (okay v s).inLen = s.inLen := rfl
@[simp] theorem okay_outLen (v : Word) (s : State) : (okay v s).outLen = s.outLen := rfl
@[simp] theorem okay_inMem (v : Word) (s : State) : (okay v s).inMem = s.inMem := rfl
@[simp] theorem okay_outMem (v : Word) (s : State) : (okay v s).outMem = s.outMem := rfl
@[simp] theorem okay_inputs (v : Word) (s : State) : (okay v s).inputs = s.inputs := rfl
@[simp] theorem okay_response (v : Word) (s : State) : (okay v s).response = some (.okay v) := rfl

/-! ### busError -/

@[simp] theorem busError_cfg (r : BusReason) (k : BitVec 5) (a : Word) (s : State) : (busError r k a s).cfg = s.cfg := rfl
@[simp] theorem busError_status (r : BusReason) (k : BitVec 5) (a : Word) (s : State) : (busError r k a s).status = s.status := rfl
@[simp] theorem busError_irqEn (r : BusReason) (k : BitVec 5) (a : Word) (s : State) : (busError r k a s).irqEn = s.irqEn := rfl
@[simp] theorem busError_inLen (r : BusReason) (k : BitVec 5) (a : Word) (s : State) : (busError r k a s).inLen = s.inLen := rfl
@[simp] theorem busError_outLen (r : BusReason) (k : BitVec 5) (a : Word) (s : State) : (busError r k a s).outLen = s.outLen := rfl
@[simp] theorem busError_inMem (r : BusReason) (k : BitVec 5) (a : Word) (s : State) : (busError r k a s).inMem = s.inMem := rfl
@[simp] theorem busError_outMem (r : BusReason) (k : BitVec 5) (a : Word) (s : State) : (busError r k a s).outMem = s.outMem := rfl
@[simp] theorem busError_inputs (r : BusReason) (k : BitVec 5) (a : Word) (s : State) : (busError r k a s).inputs = s.inputs := rfl
@[simp] theorem busError_response (r : BusReason) (k : BitVec 5) (a : Word) (s : State) : (busError r k a s).response = some (.busError ⟨r, k, a⟩) := rfl

/-! ### opError -/

@[simp] theorem opError_cfg (c : ErrCode) (p : ErrPlane) (s : State) : (opError c p s).cfg = s.cfg := rfl
@[simp] theorem opError_status (c : ErrCode) (p : ErrPlane) (s : State) : (opError c p s).status = s.status.failed c p := rfl
@[simp] theorem opError_irqEn (c : ErrCode) (p : ErrPlane) (s : State) : (opError c p s).irqEn = s.irqEn := rfl
@[simp] theorem opError_inLen (c : ErrCode) (p : ErrPlane) (s : State) : (opError c p s).inLen = s.inLen := rfl
@[simp] theorem opError_outLen (c : ErrCode) (p : ErrPlane) (s : State) : (opError c p s).outLen = s.outLen := rfl
@[simp] theorem opError_inMem (c : ErrCode) (p : ErrPlane) (s : State) : (opError c p s).inMem = s.inMem := rfl
@[simp] theorem opError_outMem (c : ErrCode) (p : ErrPlane) (s : State) : (opError c p s).outMem = s.outMem := rfl
@[simp] theorem opError_inputs (c : ErrCode) (p : ErrPlane) (s : State) : (opError c p s).inputs = s.inputs := rfl
@[simp] theorem opError_response (c : ErrCode) (p : ErrPlane) (s : State) : (opError c p s).response = s.response := rfl

/-! ### completeOk -/

@[simp] theorem completeOk_cfg (s : State) : (completeOk s).cfg = s.cfg := rfl
@[simp] theorem completeOk_status (s : State) : (completeOk s).status = s.status.completed := rfl
@[simp] theorem completeOk_irqEn (s : State) : (completeOk s).irqEn = s.irqEn := rfl
@[simp] theorem completeOk_inLen (s : State) : (completeOk s).inLen = s.inLen := rfl
@[simp] theorem completeOk_outLen (s : State) : (completeOk s).outLen = s.outLen := rfl
@[simp] theorem completeOk_inMem (s : State) : (completeOk s).inMem = s.inMem := rfl
@[simp] theorem completeOk_outMem (s : State) : (completeOk s).outMem = s.outMem := rfl
@[simp] theorem completeOk_inputs (s : State) : (completeOk s).inputs = s.inputs := rfl
@[simp] theorem completeOk_response (s : State) : (completeOk s).response = s.response := rfl

/-! ### commandClear -/

@[simp] theorem commandClear_cfg (s : State) : (commandClear s).cfg = s.cfg := rfl
@[simp] theorem commandClear_status (s : State) : (commandClear s).status = Status.reset := rfl
@[simp] theorem commandClear_irqEn (s : State) : (commandClear s).irqEn = s.irqEn := rfl
@[simp] theorem commandClear_inLen (s : State) : (commandClear s).inLen = s.inLen := rfl
@[simp] theorem commandClear_outLen (s : State) : (commandClear s).outLen = s.outLen := rfl
@[simp] theorem commandClear_inMem (s : State) : (commandClear s).inMem = s.inMem := rfl
@[simp] theorem commandClear_outMem (s : State) : (commandClear s).outMem = s.outMem := rfl
@[simp] theorem commandClear_inputs (s : State) : (commandClear s).inputs = s.inputs := rfl
@[simp] theorem commandClear_response (s : State) : (commandClear s).response = s.response := rfl

/-! ### commandIllegal -/

@[simp] theorem commandIllegal_cfg (s : State) : (commandIllegal s).cfg = s.cfg := rfl
@[simp] theorem commandIllegal_status (s : State) : (commandIllegal s).status = ⟨false, true, true, .usage, .none, .none⟩ := rfl
@[simp] theorem commandIllegal_irqEn (s : State) : (commandIllegal s).irqEn = s.irqEn := rfl
@[simp] theorem commandIllegal_inLen (s : State) : (commandIllegal s).inLen = s.inLen := rfl
@[simp] theorem commandIllegal_outLen (s : State) : (commandIllegal s).outLen = s.outLen := rfl
@[simp] theorem commandIllegal_inMem (s : State) : (commandIllegal s).inMem = s.inMem := rfl
@[simp] theorem commandIllegal_outMem (s : State) : (commandIllegal s).outMem = s.outMem := rfl
@[simp] theorem commandIllegal_inputs (s : State) : (commandIllegal s).inputs = s.inputs := rfl
@[simp] theorem commandIllegal_response (s : State) : (commandIllegal s).response = s.response := rfl

/-! ### commandNop, commandStart, resetAction -/

@[simp] theorem commandNop_eq (s : State) : commandNop s = s := rfl
@[simp] theorem commandStart_cfg (m : Mode) (s : State) : (commandStart m s).cfg = s.cfg := rfl
@[simp] theorem commandStart_status (m : Mode) (s : State) : (commandStart m s).status = Status.started m := rfl
@[simp] theorem commandStart_irqEn (m : Mode) (s : State) : (commandStart m s).irqEn = s.irqEn := rfl
@[simp] theorem commandStart_inLen (m : Mode) (s : State) : (commandStart m s).inLen = s.inLen := rfl
@[simp] theorem commandStart_outLen (m : Mode) (s : State) : (commandStart m s).outLen = 0 := rfl
@[simp] theorem commandStart_inMem (m : Mode) (s : State) : (commandStart m s).inMem = s.inMem := rfl
@[simp] theorem commandStart_outMem (m : Mode) (s : State) : (commandStart m s).outMem = s.outMem := rfl
@[simp] theorem commandStart_inputs (m : Mode) (s : State) : (commandStart m s).inputs = s.inputs := rfl
@[simp] theorem commandStart_response (m : Mode) (s : State) : (commandStart m s).response = s.response := rfl
@[simp] theorem resetAction_cfg (s : State) : (resetAction s).cfg = s.cfg := rfl
@[simp] theorem resetAction_status (s : State) : (resetAction s).status = Status.reset := rfl
@[simp] theorem resetAction_irqEn (s : State) : (resetAction s).irqEn = false := rfl
@[simp] theorem resetAction_inLen (s : State) : (resetAction s).inLen = 0 := rfl
@[simp] theorem resetAction_outLen (s : State) : (resetAction s).outLen = 0 := rfl
@[simp] theorem resetAction_inMem (s : State) : (resetAction s).inMem = [] := rfl
@[simp] theorem resetAction_outMem (s : State) : (resetAction s).outMem = [] := rfl
@[simp] theorem resetAction_inputs (s : State) : (resetAction s).inputs = s.inputs := rfl
@[simp] theorem resetAction_response (s : State) : (resetAction s).response = none := rfl

/-! ### STATUS -/

@[simp] theorem Status.started_eq (m : Mode) : Status.started m = ⟨true, false, false, .none, m, .none⟩ := rfl

@[simp] theorem Status.failed_eq (st : Status) (c : ErrCode) (p : ErrPlane) :
    st.failed c p = ⟨false, true, true, c, st.mode, p⟩ := rfl

@[simp] theorem Status.completed_eq (st : Status) :
    st.completed = ⟨false, true, false, .none, st.mode, .none⟩ := rfl

@[simp] theorem Status.reset_eq : Status.reset = ⟨false, false, false, .none, .none, .none⟩ := rfl

end Sys2Proof.Machine
end

