-- ==== Sys2Proof/Laws/Memory.lean ====
section
/-! SUPPORT. The laws of frame memory: read after write, the canonical form, the cells written. -/

namespace Sys2Proof.Machine

@[simp] theorem Memory.read_nil (a : Nat) : Memory.read [] a = none := rfl

@[simp] theorem Memory.read_cons (k : Nat) (v : Byte) (m : Memory) (a : Nat) :
    Memory.read ((k, v) :: m) a = if k = a then some v else Memory.read m a := rfl

/-- A read of the written address gives the written byte. -/
@[simp] theorem Memory.read_write_same (m : Memory) (a : Nat) (b : Byte) :
    Memory.read (Memory.write m a b) a = some b := by
  induction m with
  | nil => simp [Memory.write]
  | cons c m ih =>
    obtain ⟨k, v⟩ := c
    simp only [Memory.write]
    split
    · simp
    · split
      · simp
      · have : k ≠ a := fun h => by simp_all
        simp [this, ih]

/-- A write leaves every other address alone. -/
theorem Memory.read_write_other (m : Memory) (a x : Nat) (b : Byte) (h : x ≠ a) :
    Memory.read (Memory.write m a b) x = Memory.read m x := by
  induction m with
  | nil => simp [Memory.write, h.symm]
  | cons c m ih =>
    obtain ⟨k, v⟩ := c
    simp only [Memory.write]
    split
    · simp [h.symm]
    · split
      · next heq => subst heq; simp [h.symm]
      · simp [ih]

theorem Memory.read_write (m : Memory) (a x : Nat) (b : Byte) :
    Memory.read (Memory.write m a b) x = if x = a then some b else Memory.read m x := by
  split
  · next h => subst h; simp
  · next h => exact Memory.read_write_other m a x b h

/-- The cells after a write are the written one and old ones. -/
theorem Memory.mem_write {m : Memory} {a : Nat} {b : Byte} {c : Host.Cell}
    (h : c ∈ Memory.write m a b) : c = (a, b) ∨ c ∈ m := by
  induction m with
  | nil => simpa [Memory.write] using h
  | cons d m ih =>
    obtain ⟨k, v⟩ := d
    simp only [Memory.write] at h
    split at h
    · simpa using h
    · split at h
      · rcases List.mem_cons.1 h with h | h
        · exact .inl h
        · exact .inr (List.mem_cons_of_mem _ h)
      · rcases List.mem_cons.1 h with h | h
        · exact .inr (by simp [h])
        · exact (ih h).imp_right (List.mem_cons_of_mem _)

theorem Memory.wf_cons {k : Nat} {v : Byte} {m : Memory} :
    Memory.wf ((k, v) :: m) ↔ (∀ c ∈ m, k < c.1) ∧ Memory.wf m := by
  simp [Memory.wf, List.pairwise_cons]

/-- A write keeps the canonical form. -/
theorem Memory.write_wf {m : Memory} (h : Memory.wf m) (a : Nat) (b : Byte) : Memory.wf (Memory.write m a b) := by
  induction m with
  | nil => simp [Memory.write, Memory.wf]
  | cons d m ih =>
    obtain ⟨k, v⟩ := d
    obtain ⟨hk, hm⟩ := Memory.wf_cons.1 h
    simp only [Memory.write]
    split
    · next hlt =>
      refine Memory.wf_cons.2 ⟨fun c hc => ?_, h⟩
      rcases List.mem_cons.1 hc with rfl | hc
      · exact hlt
      · exact hlt.trans (hk c hc)
    · split
      · next heq => exact Memory.wf_cons.2 ⟨fun c hc => heq ▸ hk c hc, hm⟩
      · next hge hne =>
        refine Memory.wf_cons.2 ⟨fun c hc => ?_, ih hm⟩
        rcases Memory.mem_write hc with rfl | hc
        · show k < a
          omega
        · exact hk c hc

/-- A write inside the capacity keeps every cell inside it. -/
theorem Memory.write_within {m : Memory} {cap : Nat} (h : Memory.Within m cap) {a : Nat} (ha : a < cap) (b : Byte) :
    Memory.Within (Memory.write m a b) cap := fun c hc => by
  rcases Memory.mem_write hc with rfl | hc
  · exact ha
  · exact h c hc

/-- A byte that reads as a value is listed. -/
theorem Memory.mem_of_read {m : Memory} {a : Nat} {b : Byte} (h : Memory.read m a = some b) : (a, b) ∈ m := by
  induction m with
  | nil => simp at h
  | cons c m ih =>
    obtain ⟨k, v⟩ := c
    rw [Memory.read_cons] at h
    split at h
    · next hk => cases h; subst hk; simp
    · exact List.mem_cons_of_mem _ (ih h)

/-- In canonical form, a listed byte is what its address reads as. -/
theorem Memory.read_of_mem {m : Memory} (hwf : Memory.wf m) {a : Nat} {b : Byte} (h : (a, b) ∈ m) :
    Memory.read m a = some b := by
  induction m with
  | nil => simp at h
  | cons c m ih =>
    obtain ⟨k, v⟩ := c
    obtain ⟨hk, hm⟩ := Memory.wf_cons.1 hwf
    rcases List.mem_cons.1 h with h | h
    · cases h; simp
    · have : k ≠ a := Nat.ne_of_lt (hk _ h)
      simp [this, ih hm h]

/-- Equal memories are equal data: two canonical memories that read alike are the same list. -/
theorem Memory.ext_of_wf {m m' : Memory} (h : Memory.wf m) (h' : Memory.wf m')
    (hr : ∀ a, Memory.read m a = Memory.read m' a) : m = m' := by
  have sorted : ∀ {m : Memory}, Memory.wf m → m.Pairwise (fun x y => x.1 < y.1) := fun hm =>
    List.pairwise_map.1 hm
  have nodup : ∀ {m : Memory}, Memory.wf m → m.Nodup := fun hm =>
    (sorted hm).imp fun hlt heq => by simp [heq] at hlt
  have hp : m.Perm m' := (List.perm_ext_iff_of_nodup (nodup h) (nodup h')).2 fun c => by
    obtain ⟨a, b⟩ := c
    exact ⟨fun hc => Memory.mem_of_read (hr a ▸ Memory.read_of_mem h hc),
      fun hc => Memory.mem_of_read ((hr a).symm ▸ Memory.read_of_mem h' hc)⟩
  refine List.Perm.eq_of_pairwise (fun a b _ _ hab hba => ?_) (sorted h) (sorted h') hp
  omega

/-- What a multi-byte write leaves at every address. -/
theorem Memory.read_memWriteFrom (m : Memory) (a : Nat) (v : Word) (k n x : Nat) :
    Memory.read (memWriteFrom m a v k n) x =
      if a + k ≤ x ∧ x < a + k + n then some (byteLane v (x - a)) else Memory.read m x := by
  induction n generalizing m k with
  | zero => simp [memWriteFrom]
  | succ n ih =>
    rw [memWriteFrom, ih, Memory.read_write]
    by_cases hx : x = a + k
    · subst hx; simp
    · by_cases h1 : a + (k + 1) ≤ x ∧ x < a + (k + 1) + n
      · rw [if_pos h1, if_pos (by omega)]
      · rw [if_neg h1, if_neg hx, if_neg (by omega)]

/-- MemWrite stores byte lane x - a at x and leaves every other address alone (20_memory.md R61). -/
theorem Memory.read_memWrite (m : Memory) (a n : Nat) (v : Word) (x : Nat) :
    Memory.read (memWrite m a n v) x = if a ≤ x ∧ x < a + n then some (byteLane v (x - a)) else Memory.read m x := by
  simpa [memWrite] using Memory.read_memWriteFrom m a v 0 n x

theorem memWriteFrom_wf {m : Memory} (h : Memory.wf m) (a : Nat) (v : Word) (k n : Nat) :
    Memory.wf (memWriteFrom m a v k n) := by
  induction n generalizing m k with
  | zero => exact h
  | succ n ih => exact ih (Memory.write_wf h _ _) _

/-- MemWrite keeps the canonical form. -/
theorem memWrite_wf {m : Memory} (h : Memory.wf m) (a n : Nat) (v : Word) : Memory.wf (memWrite m a n v) :=
  memWriteFrom_wf h a v 0 n

theorem memWriteFrom_within {m : Memory} {cap : Nat} (h : Memory.Within m cap) (a : Nat) (v : Word) (k n : Nat)
    (hn : a + k + n ≤ cap) : Memory.Within (memWriteFrom m a v k n) cap := by
  induction n generalizing m k with
  | zero => exact h
  | succ n ih => exact ih (Memory.write_within h (by omega) _) _ (by omega)

/-- MemWrite inside the capacity keeps every cell inside it. -/
theorem memWrite_within {m : Memory} {cap : Nat} (h : Memory.Within m cap) (a n : Nat) (v : Word) (hn : a + n ≤ cap) :
    Memory.Within (memWrite m a n v) cap := memWriteFrom_within h a v 0 n (by omega)

/-- readCell answers the cell's byte, or its address where it is unwritten. -/
theorem readCell_ok {m : Memory} {a : Nat} {b : Byte} : readCell m a = .ok b ↔ Memory.read m a = some b := by
  unfold readCell; split <;> simp_all

theorem readCell_error {m : Memory} {a e : Nat} : readCell m a = .error e ↔ Memory.read m a = none ∧ e = a := by
  unfold readCell
  cases h : Memory.read m a <;> simp [eq_comm]

end Sys2Proof.Machine
end

