-- ==== Sys2Proof/Laws/Loops.lean ====
section
/-! SUPPORT. What the shared loops compute: all values in order, or the first error. -/

namespace Sys2Proof.Machine

/-- A collection whose values are all there is their list, in order. -/
theorem collect_ok {ε α : Type} {f : Nat → Except ε α} {g : Nat → α} (n start : Nat)
    (h : ∀ k, k < n → f (start + k) = .ok (g (start + k))) :
    collect f n start = .ok ((List.range n).map fun k => g (start + k)) := by
  induction n generalizing start with
  | zero => rfl
  | succ n ih =>
    have h0 : f start = .ok (g start) := h 0 (by omega)
    have ht := ih (start + 1) fun k hk => by
      have := h (k + 1) (by omega)
      rwa [show start + (k + 1) = start + 1 + k by omega] at this
    rw [collect, h0, ht]
    simp [List.range_succ_eq_map, Function.comp_def, Nat.add_assoc, Nat.add_comm 1]

/-- The same from 0. -/
theorem collect_zero_ok {ε α : Type} {f : Nat → Except ε α} {g : Nat → α} (n : Nat)
    (h : ∀ k, k < n → f k = .ok (g k)) : collect f n 0 = .ok ((List.range n).map g) := by
  simpa using collect_ok (f := f) (g := g) n 0 (by simpa using h)

/-- A collection that succeeds has all its values. -/
theorem collect_eq_ok {ε α : Type} {f : Nat → Except ε α} {n start : Nat} {as : List α}
    (h : collect f n start = .ok as) :
    as.length = n ∧ ∀ k (hk : k < as.length), f (start + k) = .ok as[k] := by
  induction n generalizing start as with
  | zero => cases h; simp
  | succ n ih =>
    rw [collect] at h
    split at h
    · next a ha =>
      split at h
      · next as' has =>
        cases h
        obtain ⟨hl, hv⟩ := ih has
        refine ⟨by simp [hl], fun k hk => ?_⟩
        cases k with
        | zero => simpa using ha
        | succ k => simpa [Nat.add_assoc, Nat.add_comm 1] using hv k (by simpa using hk)
      · cases h
    · cases h

/-- A grid whose values are all there is its rows. -/
theorem collectGrid_ok {ε α : Type} {f : Nat → Nat → Except ε α} {g : Nat → Nat → α} {h w : Nat}
    (hf : ∀ r c, r < h → c < w → f r c = .ok (g r c)) :
    collectGrid f h w = .ok ((List.range h).map fun r => (List.range w).map (g r)) :=
  collect_zero_ok h fun r hr => collect_zero_ok w fun c hc => hf r c hr hc

/-- A grid that succeeds has its shape and all its values. -/
theorem collectGrid_eq_ok {ε α : Type} {f : Nat → Nat → Except ε α} {h w : Nat} {rows : List (List α)}
    (hf : collectGrid f h w = .ok rows) :
    rows.length = h ∧ (∀ row ∈ rows, row.length = w) ∧
      ∀ r c, r < h → c < w → ∃ a, f r c = .ok a ∧ rows[r]?.bind (·[c]?) = some a := by
  obtain ⟨hl, hv⟩ := collect_eq_ok hf
  simp only [Nat.zero_add] at hv
  refine ⟨hl, fun row hrow => ?_, fun r c hr hc => ?_⟩
  · obtain ⟨k, hk, rfl⟩ := List.getElem_of_mem hrow
    exact (collect_eq_ok (hv k hk)).1
  · have hr' : r < rows.length := by omega
    obtain ⟨hlen, hval⟩ := collect_eq_ok (hv r hr')
    have hc' : c < rows[r].length := by omega
    have := hval c hc'
    rw [Nat.zero_add] at this
    exact ⟨_, this, by simp [hr', hc']⟩

/-- The first error is the collection's. -/
theorem collect_first_error {ε α : Type} {f : Nat → Except ε α} {e : ε} (n start k : Nat) (hk : k < n)
    (he : f (start + k) = .error e) (hok : ∀ j, j < k → ∃ a, f (start + j) = .ok a) :
    collect f n start = .error e := by
  induction n generalizing start k with
  | zero => omega
  | succ n ih =>
    rw [collect]
    cases k with
    | zero => simp only [Nat.add_zero] at he; rw [he]
    | succ k =>
      obtain ⟨a, ha⟩ := hok 0 (by omega)
      simp only [Nat.add_zero] at ha
      rw [ha, ih (start + 1) k (by omega) (by rwa [Nat.add_assoc, Nat.add_comm 1])]
      intro j hj
      have := hok (j + 1) (by omega)
      rwa [show start + (j + 1) = start + 1 + j by omega] at this

/-- A loop all of whose bodies succeed is the fold over its range. -/
theorem forLoop_ok {ε σ : Type} {body : Nat → σ → Except ε σ} {g : σ → Nat → σ} (n start : Nat) (acc : σ)
    (h : ∀ k acc, k < n → body (start + k) acc = .ok (g acc (start + k))) :
    forLoop body n start acc = .ok ((List.range n).foldl (fun a k => g a (start + k)) acc) := by
  induction n generalizing start acc with
  | zero => rfl
  | succ n ih =>
    have h0 : body start acc = .ok (g acc start) := h 0 acc (by omega)
    rw [forLoop, h0]
    have := ih (start + 1) (g acc start) fun k acc hk => by
      have := h (k + 1) acc (by omega)
      rwa [show start + (k + 1) = start + 1 + k by omega] at this
    simp only [this, List.range_succ_eq_map, List.foldl_cons, List.foldl_map, Nat.add_zero,
      Nat.succ_eq_add_one, Nat.add_assoc, Nat.add_comm 1]

/-! ### Equal bodies -/

theorem collect_congr {ε α : Type} {f g : Nat → Except ε α} (n start : Nat)
    (h : ∀ k, k < n → f (start + k) = g (start + k)) : collect f n start = collect g n start := by
  induction n generalizing start with
  | zero => rfl
  | succ n ih =>
    rw [collect, collect, show f start = g start from h 0 (by omega), ih (start + 1) fun k hk => by
      have := h (k + 1) (by omega)
      rwa [show start + (k + 1) = start + 1 + k by omega] at this]

theorem collectGrid_congr {ε α : Type} {f g : Nat → Nat → Except ε α} {h w : Nat}
    (hfg : ∀ r c, r < h → c < w → f r c = g r c) : collectGrid f h w = collectGrid g h w :=
  collect_congr h 0 fun r hr => by
    simp only [Nat.zero_add]
    exact collect_congr w 0 fun c hc => by simpa using hfg r c hr hc

theorem forLoop_congr {ε σ : Type} {f g : Nat → σ → Except ε σ} (n start : Nat) (acc : σ)
    (h : ∀ k acc, k < n → f (start + k) acc = g (start + k) acc) : forLoop f n start acc = forLoop g n start acc := by
  induction n generalizing start acc with
  | zero => rfl
  | succ n ih =>
    rw [forLoop, forLoop, show f start acc = g start acc from h 0 acc (by omega)]
    cases g start acc with
    | error e => rfl
    | ok acc' =>
      refine ih (start + 1) acc' fun k a hk => ?_
      have := h (k + 1) a (by omega)
      rwa [show start + (k + 1) = start + 1 + k by omega] at this

/-- A cell that reads alike in two memories. -/
theorem readCell_congr {m m' : Memory} {a : Nat} (h : Memory.read m a = Memory.read m' a) :
    readCell m a = readCell m' a := by rw [readCell, readCell, h]

/-! ### Reading in an order

`ReadsInOrder m L c`: the computation c reads the cells L of m, in that order, and nothing else
stops it: it fails at the first unwritten cell of L, and succeeds if there is none. -/

/-- See above. -/
def ReadsInOrder {α : Type} (m : Memory) (L : List Nat) (c : Except Nat α) : Prop :=
  match L.find? (fun a => (Memory.read m a).isNone) with
  | some a => c = .error a
  | none => ∃ v, c = .ok v

theorem ReadsInOrder.cell (m : Memory) (a : Nat) : ReadsInOrder m [a] (readCell m a) := by
  unfold ReadsInOrder readCell
  cases h : Memory.read m a <;> simp [List.find?, h]

/-- Reads in sequence: the result r is c's error, or what c's value leads to. -/
theorem ReadsInOrder.seq {α β : Type} {m : Memory} {L L' : List Nat} {c : Except Nat α} {r : Except Nat β}
    (hc : ReadsInOrder m L c) (herr : ∀ e, c = .error e → r = .error e)
    (hok : ∀ v, c = .ok v → ReadsInOrder m L' r) : ReadsInOrder m (L ++ L') r := by
  unfold ReadsInOrder at hc hok ⊢
  rw [List.find?_append]
  cases hL : L.find? (fun a => (Memory.read m a).isNone) with
  | some a =>
    rw [hL] at hc
    simpa only [Option.some_or] using herr a hc
  | none =>
    rw [hL] at hc
    obtain ⟨v, hv⟩ := hc
    simpa only [Option.none_or] using hok v hv

/-- A result that fails and succeeds with c reads what c reads. -/
theorem ReadsInOrder.congr {α β : Type} {m : Memory} {L : List Nat} {c : Except Nat α} {r : Except Nat β}
    (hc : ReadsInOrder m L c) (herr : ∀ e, c = .error e → r = .error e)
    (hok : ∀ v, c = .ok v → ∃ w, r = .ok w) : ReadsInOrder m L r := by
  simpa using hc.seq (L' := []) herr fun v hv => hok v hv

/-- A value read in an order and then mapped. -/
theorem ReadsInOrder.map {α β : Type} {m : Memory} {L : List Nat} {c : Except Nat α} (hc : ReadsInOrder m L c)
    (f : α → β) : ReadsInOrder m L (c.map f) :=
  hc.congr (fun e he => by rw [he]; rfl) fun v hv => ⟨f v, by rw [hv]; rfl⟩

/-- Reading nothing. -/
theorem ReadsInOrder.pure {α : Type} (m : Memory) (v : α) : ReadsInOrder m [] (.ok v : Except Nat α) := ⟨v, rfl⟩

/-- A collection reads its elements' orders one after another. -/
theorem ReadsInOrder.collect {α : Type} {m : Memory} {f : Nat → Except Nat α} {order : Nat → List Nat}
    (h : ∀ k, ReadsInOrder m (order k) (f k)) (n start : Nat) :
    ReadsInOrder m ((List.range n).flatMap fun k => order (start + k)) (collect f n start) := by
  induction n generalizing start with
  | zero => exact .pure m _
  | succ n ih =>
    have ih := ih (start + 1)
    simp only [Nat.add_assoc, Nat.add_comm 1] at ih
    rw [List.range_succ_eq_map, List.flatMap_cons, List.flatMap_map]
    refine (h (start + 0)).seq (fun e he => ?_) fun a ha => ih.congr (fun e he => ?_) fun as has => ⟨a :: as, ?_⟩
    all_goals simp_all [Machine.collect]

/-- A loop reads its bodies' orders one after another. -/
theorem ReadsInOrder.forLoop {σ : Type} {m : Memory} {body : Nat → σ → Except Nat σ} {order : Nat → List Nat}
    (h : ∀ k acc, ReadsInOrder m (order k) (body k acc)) (n start : Nat) (acc : σ) :
    ReadsInOrder m ((List.range n).flatMap fun k => order (start + k)) (forLoop body n start acc) := by
  induction n generalizing start acc with
  | zero => exact .pure m _
  | succ n ih =>
    rw [List.range_succ_eq_map, List.flatMap_cons, List.flatMap_map]
    refine (h (start + 0) acc).seq (fun e he => ?_) fun a ha => ?_
    · simp_all [Machine.forLoop]
    · have ih := ih (start + 1) a
      simp only [Nat.add_assoc, Nat.add_comm 1] at ih
      simpa only [Machine.forLoop, Nat.add_zero, show body start acc = .ok a from ha] using ih

/-- A grid reads its elements' orders row by row. -/
theorem ReadsInOrder.collectGrid {α : Type} {m : Memory} {f : Nat → Nat → Except Nat α} {order : Nat → Nat → List Nat}
    (h : ∀ r c, ReadsInOrder m (order r c) (f r c)) (rows cols : Nat) :
    ReadsInOrder m ((List.range rows).flatMap fun r => (List.range cols).flatMap fun c => order r c)
      (collectGrid f rows cols) := by
  have hrow : ∀ r, ReadsInOrder m ((List.range cols).flatMap fun c => order r c) (Machine.collect (f r) cols 0) :=
    fun r => by simpa only [Nat.zero_add] using ReadsInOrder.collect (h r) cols 0
  have := ReadsInOrder.collect hrow rows 0
  simp only [Nat.zero_add] at this
  exact this

end Sys2Proof.Machine
end

