-- ==== Sys2Proof/Laws/Transact.lean ====
section
/-! SUPPORT. What the host transaction, a request's meaning and exec can do, said once. -/

namespace Sys2Proof.Machine

theorem kindSize_pos (k : Kind) : 0 < k.size := by cases k <;> decide

/-- The address check passes exactly for an aligned access inside the space (40_host_transactions.md R113). -/
theorem addrCheck_eq_none {g : Geometry} {k : Kind} {a : Word} :
    addrCheck g k a = none ↔ a.toNat + k.size ≤ spaceSize g k.space ∧ a.toNat % k.size = 0 := by
  unfold addrCheck
  split
  · simp; omega
  · split <;> simp_all

theorem addrCheck_eq_outOfRange {g : Geometry} {k : Kind} {a : Word} :
    addrCheck g k a = some .outOfRange ↔ a.toNat + k.size > spaceSize g k.space := by
  unfold addrCheck
  split
  · simp_all
  · split <;> simp_all

theorem addrCheck_eq_misaligned {g : Geometry} {k : Kind} {a : Word} :
    addrCheck g k a = some .misaligned ↔
      a.toNat + k.size ≤ spaceSize g k.space ∧ a.toNat % k.size ≠ 0 := by
  unfold addrCheck
  split
  · simp; omega
  · split <;> simp_all

/-- A request that passes every check of 40_host_transactions.md R100. -/
theorem checkRequest_eq_none {s : State} {k : Kind} {a : Word} :
    checkRequest s k a = none ↔
      a.toNat + k.size ≤ spaceSize s.cfg.geom k.space ∧ a.toNat % k.size = 0 ∧
      ¬ (k = .regWrite ∧ isReadOnlyOffset a = true) ∧ ¬ (s.status.busy = true ∧ interlocked k a = true) := by
  rw [← and_assoc, ← addrCheck_eq_none]
  unfold checkRequest
  cases h : addrCheck s.cfg.geom k a with
  | some r => simp
  | none =>
    simp only [true_and]
    split
    · simp_all
    · split <;> simp_all

/-- A transaction is refused with the first failing check, or runs. -/
theorem transact_of_some {s : State} {k : Kind} {a : Word} {p} {r : BusReason} (h : checkRequest s k a = some r) :
    transact k a p s = .next (busError r k.bits a s) := by rw [transact, h]

theorem transact_of_none {s : State} {k : Kind} {a : Word} {p} (h : checkRequest s k a = none) :
    transact k a p s = p s := by rw [transact, h]

theorem transact_next {s t : State} {k : Kind} {a : Word} {p} (h : transact k a p s = .next t) :
    (∃ r, checkRequest s k a = some r ∧ t = busError r k.bits a s) ∨ (checkRequest s k a = none ∧ p s = .next t) := by
  unfold transact at h
  split at h
  · next r hr => cases h; exact .inl ⟨r, hr, rfl⟩
  · next hr => exact .inr ⟨hr, h⟩

theorem transact_fault {s : State} {f : Fault} {k : Kind} {a : Word} {p} (h : transact k a p s = .fault f) :
    checkRequest s k a = none ∧ p s = .fault f := by
  unfold transact at h
  split at h
  · cases h
  · next hr => exact ⟨hr, h⟩

theorem transact_refused {s : State} {q : Refusal} {k : Kind} {a : Word} {p} (h : transact k a p s = .refused q) :
    p s = .refused q := by
  unfold transact at h
  split at h
  · cases h
  · exact h

/-- An offset that passes the address check of a REG request is a register's (10_state.md R23). -/
theorem regAt_isSome {a : Word} (h : a.toNat + 4 ≤ 0x2C) (ha : a.toNat % 4 = 0) : ∃ r, regAt a = some r := by
  obtain ⟨n, hn⟩ : ∃ n, a.toNat = 4 * n := ⟨a.toNat / 4, by omega⟩
  have hlt : n < 11 := by omega
  have : a = BitVec.ofNat 32 (4 * n) := by rw [← hn]; simp
  subst this
  interval_cases n <;> exact ⟨_, rfl⟩

/-- A register is at its own offset alone (10_state.md R23). -/
theorem eq_offset_of_regAt {a : Word} {r : Reg} (h : regAt a = some r) : a = r.offset := by
  unfold regAt at h
  iterate 11 (rcases ite_eq_iff.1 h with ⟨ha, hr⟩ | ⟨-, h⟩; · rw [ha, ← Option.some.inj hr]; rfl)
  exact absurd h (by simp)

@[simp] theorem regAt_offset (r : Reg) : regAt r.offset = some r := by cases r <;> rfl

theorem gt_three_of_not_command {w : Word} (h0 : w ≠ 0) (h1 : w ≠ 1) (h2 : w ≠ 2) (h3 : w ≠ 3) : w.toNat > 3 := by
  bv_omega

/-- MemRead answers a value, or the lowest unwritten address of the access. -/
theorem memRead_error {m : Memory} {a n e : Nat} (h : memRead m a n = .error e) :
    a ≤ e ∧ e < a + n ∧ Memory.read m e = none := by
  have key : ∀ n a, collect (readCell m) n a = .error e → a ≤ e ∧ e < a + n ∧ Memory.read m e = none := by
    intro n
    induction n with
    | zero => intro a h; cases h
    | succ n ih =>
      intro a h
      rw [collect] at h
      split at h
      · split at h
        · cases h
        · next he =>
          cases h
          obtain ⟨h1, h2, h3⟩ := ih _ he
          exact ⟨by omega, by omega, h3⟩
      · next he =>
        cases h
        obtain ⟨hr, rfl⟩ := readCell_error.1 he
        exact ⟨le_refl _, by omega, hr⟩
  unfold memRead at h
  cases hc : collect (readCell m) n a with
  | ok bs => rw [hc] at h; cases h
  | error e' => rw [hc] at h; cases h; exact key n a hc

/-! ### exec, one equation an instruction -/

theorem exec_regRead (a : Word) (s : State) : exec (.regRead a) s = transact .regRead a (performRegRead a) s := rfl
theorem exec_regWrite (a v : Word) (s : State) : exec (.regWrite a v) s = transact .regWrite a (performRegWrite a v) s := rfl
theorem exec_inReadB (a : Word) (s : State) : exec (.inReadB a) s = transact .inReadB a (performInRead a 1) s := rfl
theorem exec_inReadH (a : Word) (s : State) : exec (.inReadH a) s = transact .inReadH a (performInRead a 2) s := rfl
theorem exec_inReadW (a : Word) (s : State) : exec (.inReadW a) s = transact .inReadW a (performInRead a 4) s := rfl
theorem exec_inWriteB (a v : Word) (s : State) : exec (.inWriteB a v) s = transact .inWriteB a (performInWrite a 1 v) s := rfl
theorem exec_inWriteH (a v : Word) (s : State) : exec (.inWriteH a v) s = transact .inWriteH a (performInWrite a 2 v) s := rfl
theorem exec_inWriteW (a v : Word) (s : State) : exec (.inWriteW a v) s = transact .inWriteW a (performInWrite a 4 v) s := rfl
theorem exec_outReadB (a : Word) (s : State) : exec (.outReadB a) s = transact .outReadB a (performOutRead a 1) s := rfl
theorem exec_outReadH (a : Word) (s : State) : exec (.outReadH a) s = transact .outReadH a (performOutRead a 2) s := rfl
theorem exec_outReadW (a : Word) (s : State) : exec (.outReadW a) s = transact .outReadW a (performOutRead a 4) s := rfl
theorem exec_nop (s : State) : exec .nop s = writeCtrl commandNop s := rfl
theorem exec_startAvg (s : State) : exec .startAvg s = writeCtrl (commandStart .average) s := rfl
theorem exec_startSkip (s : State) : exec .startSkip s = writeCtrl (commandStart .skip) s := rfl
theorem exec_clearStatus (s : State) : exec .clearStatus s = writeCtrl commandClear s := rfl

/-- A command written to CTRL while idle runs (41_commands.md R120). -/
theorem writeCtrl_idle {cmd : State → State} {s : State} (idle : s.status.busy = false) :
    writeCtrl cmd s = .next (okay 0 (cmd s)) :=
  transact_of_none (p := fun s => .next (okay 0 (cmd s)))
    (checkRequest_eq_none.2 ⟨by simp [spaceSize, Kind.space, Kind.size, ctrlOffset], by decide, by decide, by simp [idle]⟩)

/-- What exec can do to the state when it answers a next state. -/
inductive ExecEffect (s : State) : Instr → State → Prop where
  /-- Nothing but the response: a read, a NOP, or a bus error. -/
  | response (i : Instr) (r : Response) : ExecEffect s i { s with response := some r }
  /-- IRQ_EN written. -/
  | irqEn (v : Word) : ExecEffect s (.regWrite 0x0C v) (okay 0 { s with irqEn := v.getLsbD 0 })
  /-- IN_LEN written while idle. -/
  | inLen (v : Word) (idle : s.status.busy = false) : ExecEffect s (.regWrite 0x10 v) (okay 0 { s with inLen := v })
  /-- A START while idle. -/
  | start (i : Instr) (m : Mode) (idle : s.status.busy = false) (hm : m ≠ .none)
      (hi : i = .startAvg ∨ i = .startSkip ∨ i = .regWrite 0x04 0x1 ∨ i = .regWrite 0x04 0x2) :
      ExecEffect s i (okay 0 (commandStart m s))
  /-- CLEAR_STATUS while idle. -/
  | clear (i : Instr) (idle : s.status.busy = false) (hi : i = .clearStatus ∨ i = .regWrite 0x04 0x3) :
      ExecEffect s i (okay 0 (commandClear s))
  /-- An illegal command while idle. -/
  | illegal (w : Word) (idle : s.status.busy = false) (hw : w.toNat > 3) :
      ExecEffect s (.regWrite 0x04 w) (okay 0 (commandIllegal s))
  /-- IN written while idle, inside its capacity. -/
  | store (i : Instr) (a v : Word) (n : Nat) (idle : s.status.busy = false) (hcap : a.toNat + n ≤ inCap s.cfg.geom)
      (hi : (i = .inWriteB a v ∧ n = 1) ∨ (i = .inWriteH a v ∧ n = 2) ∨ (i = .inWriteW a v ∧ n = 4)) :
      ExecEffect s i (okay 0 { s with inMem := memWrite s.inMem a.toNat n v })

theorem idle_of_check {s : State} {k : Kind} {a : Word} (h : checkRequest s k a = none) (hk : interlocked k a = true) :
    s.status.busy = false := by
  have := (checkRequest_eq_none.1 h).2.2.2
  simpa [hk] using this

/-- What a command word written to CTRL while idle does. -/
theorem command_effect (w : Word) {s : State} (idle : s.status.busy = false) :
    ExecEffect s (.regWrite 0x04 w) (okay 0 (command w s)) := by
  unfold command
  split
  · exact .response _ _
  · split
    · next hv => subst hv; exact .start _ _ idle (by decide) (by simp)
    · split
      · next hv => subst hv; exact .start _ _ idle (by decide) (by simp)
      · split
        · next hv => subst hv; exact .clear _ idle (by simp)
        · next h0 h1 h2 h3 => exact .illegal _ idle (gt_three_of_not_command h0 h1 h2 h3)

theorem writeCtrl_not_fault (cmd : State → State) (s : State) (f : Fault) : writeCtrl cmd s ≠ .fault f := fun h => by
  cases (transact_fault h).2

theorem writeCtrl_not_refused (cmd : State → State) (s : State) (q : Refusal) : writeCtrl cmd s ≠ .refused q :=
  fun h => by cases transact_refused h

theorem writeCtrl_effect {cmd : State → State} {s t : State} (h : writeCtrl cmd s = .next t) :
    (∃ r, t = { s with response := some r }) ∨ (s.status.busy = false ∧ t = okay 0 (cmd s)) := by
  rcases transact_next h with ⟨r, -, rfl⟩ | ⟨hc, hp⟩
  · exact .inl ⟨_, rfl⟩
  · cases hp; exact .inr ⟨idle_of_check hc rfl, rfl⟩

theorem inRead_effect {k : Kind} {a : Word} {n : Nat} {s t : State}
    (h : transact k a (performInRead a n) s = .next t) : ∃ r, t = { s with response := some r } := by
  rcases transact_next h with ⟨r, -, rfl⟩ | ⟨-, hp⟩
  · exact ⟨_, rfl⟩
  · unfold performInRead at hp
    split at hp <;> cases hp
    exact ⟨_, rfl⟩

theorem outRead_effect {k : Kind} {a : Word} {n : Nat} {s t : State}
    (h : transact k a (performOutRead a n) s = .next t) : ∃ r, t = { s with response := some r } := by
  rcases transact_next h with ⟨r, -, rfl⟩ | ⟨-, hp⟩
  · exact ⟨_, rfl⟩
  · unfold performOutRead at hp
    split at hp <;> cases hp
    exact ⟨_, rfl⟩

theorem inWrite_effect {k : Kind} {a v : Word} {n : Nat} {s t : State} (hk : interlocked k a = true)
    (hs : k.space = .inp) (hn : k.size = n) (h : transact k a (performInWrite a n v) s = .next t) :
    (∃ r, t = { s with response := some r }) ∨ (s.status.busy = false ∧ a.toNat + n ≤ inCap s.cfg.geom ∧
      t = okay 0 { s with inMem := memWrite s.inMem a.toNat n v }) := by
  rcases transact_next h with ⟨r, -, rfl⟩ | ⟨hc, hp⟩
  · exact .inl ⟨_, rfl⟩
  · cases hp
    have := (checkRequest_eq_none.1 hc).1
    rw [hs, hn] at this
    exact .inr ⟨idle_of_check hc hk, this, rfl⟩

/-- The one inversion lemma of exec: if it answers a next state, the state is one of these. -/
theorem exec_effect {i : Instr} {s t : State} (h : exec i s = .next t) : ExecEffect s i t := by
  cases i with
  | regRead a =>
    rcases transact_next h with ⟨r, -, rfl⟩ | ⟨-, hp⟩
    · exact .response _ _
    · unfold performRegRead at hp
      split at hp <;> cases hp <;> exact .response _ _
  | regWrite a v =>
    rcases transact_next h with ⟨r, -, rfl⟩ | ⟨hc, hp⟩
    · exact .response _ _
    · unfold performRegWrite at hp
      split at hp
      · next r hr =>
        obtain rfl := eq_offset_of_regAt hr
        cases r <;> cases hp
        case ctrl => exact command_effect v (idle_of_check hc rfl)
        case irqEn => exact .irqEn v
        case inLen => exact .inLen v (idle_of_check hc rfl)
        all_goals exact .response _ _
      · cases hp; exact .response _ _
  | inReadB a => obtain ⟨r, rfl⟩ := inRead_effect h; exact .response _ _
  | inReadH a => obtain ⟨r, rfl⟩ := inRead_effect h; exact .response _ _
  | inReadW a => obtain ⟨r, rfl⟩ := inRead_effect h; exact .response _ _
  | inWriteB a v =>
    rcases inWrite_effect rfl rfl rfl h with ⟨r, rfl⟩ | ⟨idle, hcap, rfl⟩
    · exact .response _ _
    · exact .store _ a v 1 idle hcap (by simp)
  | inWriteH a v =>
    rcases inWrite_effect rfl rfl rfl h with ⟨r, rfl⟩ | ⟨idle, hcap, rfl⟩
    · exact .response _ _
    · exact .store _ a v 2 idle hcap (by simp)
  | inWriteW a v =>
    rcases inWrite_effect rfl rfl rfl h with ⟨r, rfl⟩ | ⟨idle, hcap, rfl⟩
    · exact .response _ _
    · exact .store _ a v 4 idle hcap (by simp)
  | outReadB a => obtain ⟨r, rfl⟩ := outRead_effect h; exact .response _ _
  | outReadH a => obtain ⟨r, rfl⟩ := outRead_effect h; exact .response _ _
  | outReadW a => obtain ⟨r, rfl⟩ := outRead_effect h; exact .response _ _
  | nop =>
    rcases writeCtrl_effect h with ⟨r, rfl⟩ | ⟨idle, rfl⟩
    · exact .response _ _
    · exact .response _ _
  | startAvg =>
    rcases writeCtrl_effect h with ⟨r, rfl⟩ | ⟨idle, rfl⟩
    · exact .response _ _
    · exact .start _ _ idle (by simp) (by simp)
  | startSkip =>
    rcases writeCtrl_effect h with ⟨r, rfl⟩ | ⟨idle, rfl⟩
    · exact .response _ _
    · exact .start _ _ idle (by simp) (by simp)
  | clearStatus =>
    rcases writeCtrl_effect h with ⟨r, rfl⟩ | ⟨idle, rfl⟩
    · exact .response _ _
    · exact .clear _ idle (by simp)

theorem inRead_fault {k : Kind} {a : Word} {n : Nat} {s : State} {f : Fault} (hs : k.space = .inp) (hn : k.size = n)
    (h : transact k a (performInRead a n) s = .fault f) :
    ∃ e, f = .unwrittenRead .inp e ∧ Memory.read s.inMem e = none ∧ e < inCap s.cfg.geom := by
  obtain ⟨hc, hp⟩ := transact_fault h
  have hr := (checkRequest_eq_none.1 hc).1
  rw [hs, hn] at hr
  unfold performInRead at hp
  split at hp <;> cases hp
  next e he =>
  obtain ⟨-, h2, h3⟩ := memRead_error he
  exact ⟨e, rfl, h3, lt_of_lt_of_le h2 hr⟩

theorem outRead_fault {k : Kind} {a : Word} {n : Nat} {s : State} {f : Fault} (hs : k.space = .out) (hn : k.size = n)
    (h : transact k a (performOutRead a n) s = .fault f) :
    ∃ e, f = .unwrittenRead .out e ∧ Memory.read s.outMem e = none ∧ e < outCap s.cfg.geom := by
  obtain ⟨hc, hp⟩ := transact_fault h
  have hr := (checkRequest_eq_none.1 hc).1
  rw [hs, hn] at hr
  unfold performOutRead at hp
  split at hp <;> cases hp
  next e he =>
  obtain ⟨-, h2, h3⟩ := memRead_error he
  exact ⟨e, rfl, h3, lt_of_lt_of_le h2 hr⟩

theorem noFault_of_perform {k : Kind} {a : Word} {p} {s : State} {f : Fault} (hp : ∀ s, p s ≠ .fault f) :
    transact k a p s ≠ .fault f := fun h => hp s (transact_fault h).2

theorem performRegRead_next (a : Word) (s : State) : ∃ t, performRegRead a s = .next t := by
  unfold performRegRead; split <;> exact ⟨_, rfl⟩

theorem performRegWrite_next (a v : Word) (s : State) : ∃ t, performRegWrite a v s = .next t := by
  unfold performRegWrite
  split
  · split <;> exact ⟨_, rfl⟩
  · exact ⟨_, rfl⟩

/-- exec faults only on a read of an unwritten cell of the memory it reads. -/
theorem exec_fault {i : Instr} {s : State} {f : Fault} (h : exec i s = .fault f) :
    (∃ e, f = .unwrittenRead .inp e ∧ Memory.read s.inMem e = none ∧ e < inCap s.cfg.geom) ∨
    (∃ e, f = .unwrittenRead .out e ∧ Memory.read s.outMem e = none ∧ e < outCap s.cfg.geom) := by
  cases i with
  | regRead a => obtain ⟨t, ht⟩ := performRegRead_next a s; rw [(transact_fault h).2] at ht; cases ht
  | regWrite a v => obtain ⟨t, ht⟩ := performRegWrite_next a v s; rw [(transact_fault h).2] at ht; cases ht
  | inReadB a => exact .inl (inRead_fault rfl rfl h)
  | inReadH a => exact .inl (inRead_fault rfl rfl h)
  | inReadW a => exact .inl (inRead_fault rfl rfl h)
  | inWriteB a v | inWriteH a v | inWriteW a v => cases (transact_fault h).2
  | outReadB a => exact .inr (outRead_fault rfl rfl h)
  | outReadH a => exact .inr (outRead_fault rfl rfl h)
  | outReadW a => exact .inr (outRead_fault rfl rfl h)
  | nop | startAvg | startSkip | clearStatus => exact absurd h (writeCtrl_not_fault _ _ _)

theorem performRead_not_refused {a : Word} {n : Nat} {s : State} {q : Refusal} :
    performInRead a n s ≠ .refused q ∧ performOutRead a n s ≠ .refused q := by
  unfold performInRead performOutRead
  constructor <;> split <;> simp

/-- exec never refuses. -/
theorem exec_not_refused (i : Instr) (s : State) (q : Refusal) : exec i s ≠ .refused q := by
  intro h
  cases i with
  | regRead a => obtain ⟨t, ht⟩ := performRegRead_next a s; rw [transact_refused h] at ht; cases ht
  | regWrite a v => obtain ⟨t, ht⟩ := performRegWrite_next a v s; rw [transact_refused h] at ht; cases ht
  | inReadB a | inReadH a | inReadW a => exact performRead_not_refused.1 (transact_refused h)
  | outReadB a | outReadH a | outReadW a => exact performRead_not_refused.2 (transact_refused h)
  | inWriteB a v | inWriteH a v | inWriteW a v => cases transact_refused h
  | nop | startAvg | startSkip | clearStatus => exact absurd h (writeCtrl_not_refused _ _ _)

end Sys2Proof.Machine
end

