-- ==== Sys2Proof/Laws/Access.lean ====
section
/-! SUPPORT. The accesses of a host transaction: the value MemRead answers, the bytes of a write datum, and the
outcome of the checks from the address alone (20_memory.md R61; 40_host_transactions.md R100, R101, R113). -/

namespace Sys2Proof.Machine

/-! ### Values -/

/-- The value of an access's bytes as a number, the lowest address first (20_memory.md R61). -/
def bytesValue : List Byte → Nat
  | [] => 0
  | b :: bs => b.toNat + 256 * bytesValue bs

theorem bytesValue_lt (bs : List Byte) : bytesValue bs < 2 ^ (8 * bs.length) := by
  induction bs with
  | nil => simp [bytesValue]
  | cons b bs ih =>
    have := b.isLt
    rw [bytesValue, List.length_cons, Nat.mul_add, Nat.pow_add]
    omega

/-- The zero-extended little-endian value is exact for up to four bytes (20_memory.md R61). -/
theorem littleEndian_toNat {bs : List Byte} (h : bs.length ≤ 4) : (littleEndian bs).toNat = bytesValue bs := by
  induction bs with
  | nil => rfl
  | cons b bs ih =>
    rw [List.length_cons] at h
    have hv := bytesValue_lt bs
    have hp : 2 ^ (8 * bs.length) ≤ 2 ^ 24 := Nat.pow_le_pow_right (by omega) (by omega)
    have hb := b.isLt
    have hor : b.toNat ||| bytesValue bs <<< 8 = b.toNat + 256 * bytesValue bs := by
      rw [Nat.lor_comm, ← Nat.shiftLeft_add_eq_or_of_lt hb, Nat.shiftLeft_eq]
      omega
    rw [littleEndian, BitVec.toNat_or, BitVec.toNat_shiftLeft, BitVec.toNat_setWidth, ih (by omega),
      Nat.mod_eq_of_lt (show b.toNat < 2 ^ 32 by omega), Nat.mod_eq_of_lt (by rw [Nat.shiftLeft_eq]; omega), hor,
      bytesValue]

/-- The value of n bytes is the sum of the bytes shifted to their lanes (20_memory.md R61). -/
theorem bytesValue_range (bytes : Nat → Byte) (n : Nat) :
    bytesValue ((List.range n).map bytes) = ((List.range n).map fun k => (bytes k).toNat * 2 ^ (8 * k)).sum := by
  induction n generalizing bytes with
  | zero => rfl
  | succ n ih =>
    rw [List.range_succ_eq_map, List.map_cons, List.map_cons, List.map_map, List.map_map, bytesValue, List.sum_cons,
      show bytes ∘ Nat.succ = fun k => bytes (k + 1) from rfl, ih, ← List.sum_map_mul_left]
    simp only [Nat.mul_zero, Nat.pow_zero, Nat.mul_one, Function.comp_def]
    congr 3
    funext k
    rw [Nat.mul_succ, Nat.pow_add]
    ring

/-- The value MemRead answers for up to four bytes, in the words of 20_memory.md R61. -/
theorem littleEndian_range (bytes : Nat → Byte) {n : Nat} (h : n ≤ 4) :
    littleEndian ((List.range n).map bytes) =
      BitVec.ofNat 32 ((List.range n).map fun k => (bytes k).toNat * 2 ^ (8 * k)).sum := by
  rw [← bytesValue_range, ← littleEndian_toNat (by simpa using h), BitVec.ofNat_toNat, BitVec.setWidth_eq]

/-- Byte lane k as a number (20_memory.md R61). -/
theorem byteLane_toNat (v : Word) (k : Nat) : (byteLane v k).toNat = v.toNat / 2 ^ (8 * k) % 256 := by
  simp [byteLane, Nat.shiftRight_eq_div_pow]

/-- The lowest n bytes of a number, put together again. -/
theorem bytesValue_lanes (x n : Nat) :
    bytesValue ((List.range n).map fun k => BitVec.ofNat 8 (x / 2 ^ (8 * k))) = x % 2 ^ (8 * n) := by
  induction n generalizing x with
  | zero => simp [bytesValue, Nat.mod_one]
  | succ n ih =>
    have h : (fun k => BitVec.ofNat 8 (x / 2 ^ (8 * k))) ∘ Nat.succ = fun k => BitVec.ofNat 8 (x / 256 / 2 ^ (8 * k)) := by
      funext k
      rw [Function.comp_apply, Nat.mul_succ, Nat.pow_add, Nat.mul_comm, ← Nat.div_div_eq_div_mul]
    rw [List.range_succ_eq_map, List.map_cons, List.map_map, h, bytesValue, ih, Nat.mul_succ, Nat.add_comm (8 * n),
      Nat.pow_add, Nat.mod_mul]
    simp

/-- The byte lanes of a write datum, read back as n bytes, are its low 8n bits (20_memory.md R61). -/
theorem littleEndian_byteLane (v : Word) {n : Nat} (h : n ≤ 4) :
    littleEndian ((List.range n).map (byteLane v)) = BitVec.ofNat 32 (v.toNat % 2 ^ (8 * n)) := by
  have hl : byteLane v = fun k => BitVec.ofNat 8 (v.toNat / 2 ^ (8 * k)) := funext fun k =>
    BitVec.eq_of_toNat_eq (by rw [byteLane_toNat, BitVec.toNat_ofNat])
  rw [hl, ← bytesValue_lanes, ← littleEndian_toNat (by simpa using h), BitVec.ofNat_toNat, BitVec.setWidth_eq]

/-- MemRead of written cells answers their bytes. -/
theorem memRead_ok {m : Memory} {a n : Nat} {bytes : Nat → Byte}
    (h : ∀ k, k < n → Memory.read m (a + k) = some (bytes k)) :
    memRead m a n = .ok (littleEndian ((List.range n).map bytes)) := by
  rw [memRead, collect_ok (g := fun x => bytes (x - a)) n a fun k hk => readCell_ok.2 (by simpa using h k hk)]
  simp [Except.map]

/-- MemRead stops at the first unwritten cell, in rising address order. -/
theorem memRead_first {m : Memory} {a n k : Nat} (hk : k < n) (h : Memory.read m (a + k) = none)
    (hj : ∀ j, j < k → (Memory.read m (a + j)).isSome = true) : memRead m a n = .error (a + k) := by
  rw [memRead, collect_first_error n a k hk (readCell_error.2 ⟨h, rfl⟩) fun j hj' => ?_]
  · rfl
  · obtain ⟨b, hb⟩ := Option.isSome_iff_exists.1 (hj j hj')
    exact ⟨b, readCell_ok.2 hb⟩

/-! ### Placement (20_memory.md R67) -/

@[simp] theorem systemAddress_reg (a : Word) : systemAddress .reg a = Config.regBase + a.toNat := rfl
@[simp] theorem systemAddress_inp (a : Word) : systemAddress .inp a = Config.inBase + a.toNat := rfl
@[simp] theorem systemAddress_out (a : Word) : systemAddress .out a = Config.outBase + a.toNat := rfl

/-- Wherever the platform puts a space, its addresses keep apart. -/
theorem systemAddress_inj {sp : Space} {a b : Word} (h : systemAddress sp a = systemAddress sp b) : a = b :=
  BitVec.eq_of_toNat_eq (Nat.add_left_cancel h)

/-! ### Checks -/

@[simp] theorem spaceSize_reg (g : Geometry) : spaceSize g .reg = 0x2C := rfl
@[simp] theorem spaceSize_inp (g : Geometry) : spaceSize g .inp = inFrameBytes g := rfl
@[simp] theorem spaceSize_out (g : Geometry) : spaceSize g .out = outFrameBytes g := rfl
@[simp] theorem inCap_eq (g : Geometry) : inCap g = inFrameBytes g := rfl
@[simp] theorem outCap_eq (g : Geometry) : outCap g = outFrameBytes g := rfl

theorem checkRequest_outOfRange {s : State} {k : Kind} {a : Word} (h : a.toNat + k.size > spaceSize s.cfg.geom k.space) :
    checkRequest s k a = some .outOfRange := by rw [checkRequest, addrCheck_eq_outOfRange.2 h]

theorem checkRequest_misaligned {s : State} {k : Kind} {a : Word} (h : a.toNat + k.size ≤ spaceSize s.cfg.geom k.space)
    (ha : a.toNat % k.size ≠ 0) : checkRequest s k a = some .misaligned := by
  rw [checkRequest, addrCheck_eq_misaligned.2 ⟨h, ha⟩]

theorem checkRequest_readOnly {s : State} {a : Word} (h : isReadOnlyOffset a = true) :
    checkRequest s .regWrite a = some .readOnly := by
  have hr : a.toNat + 4 ≤ 0x2C ∧ a.toNat % 4 = 0 := by
    have := of_decide_eq_true h
    simp only [List.mem_cons, List.not_mem_nil, or_false] at this
    rcases this with rfl | rfl | rfl | rfl | rfl | rfl | rfl | rfl <;> decide
  rw [checkRequest, addrCheck_eq_none.2 hr]
  simp [h]

theorem checkRequest_busy {s : State} {k : Kind} {a : Word} (h : a.toNat + k.size ≤ spaceSize s.cfg.geom k.space)
    (ha : a.toNat % k.size = 0) (hr : ¬ (k = .regWrite ∧ isReadOnlyOffset a = true)) (hb : s.status.busy = true)
    (hi : interlocked k a = true) : checkRequest s k a = some .busy := by
  rw [checkRequest, addrCheck_eq_none.2 ⟨h, ha⟩]
  exact (if_neg hr).trans (if_pos ⟨hb, hi⟩)

end Sys2Proof.Machine
end

