-- ==== Sys2Proof/Laws/Geometry.lean ====
section
/-! SUPPORT. The arithmetic of the geometry: when Validate passes and what follows (42_plane_splitter.md R149). -/

namespace Sys2Proof.Machine

/-- What Validate checks, one conjunct a check (42_plane_splitter.md R148). -/
theorem validate_eq_none {g : Geometry} {len : Word} :
    validate g len = none ↔
      inputSizeOk g len = true ∧ formatOk g = true ∧ lumaDivOk g = true ∧ chromaDivOk g = true := by
  unfold validate
  cases inputSizeOk g len <;> cases formatOk g <;> cases lumaDivOk g <;> cases chromaDivOk g <;> simp

theorem formatOk_iff {g : Geometry} : formatOk g = true ↔ g.inW % 2 = 0 ∧ g.inH % 2 = 0 := by simp [formatOk]

theorem lumaDivOk_iff {g : Geometry} : lumaDivOk g = true ↔ g.inH % g.fy = 0 ∧ g.inW % g.fx = 0 := by
  simp [lumaDivOk, blockDiv]

theorem chromaDivOk_iff {g : Geometry} : chromaDivOk g = true ↔ g.inH / 2 % g.fy = 0 ∧ g.inW / 2 % g.fx = 0 := by
  simp [chromaDivOk, blockDiv, chH, chW]

/-- A legal frame's length fits IN_LEN (00_scope.md R7). -/
theorem inFrameBytes_lt (c : Config) : inFrameBytes c.geom < 2 ^ 32 := by
  have := c.legal.2.2.2.2.2.2.2
  unfold inFrameBytes
  omega

/-- The 32-bit compare of IN_LEN is equality of lengths (42_plane_splitter.md R140). -/
theorem inputSizeOk_iff {c : Config} {len : Word} :
    inputSizeOk c.geom len = true ↔ len.toNat = c.geom.inW * c.geom.inH * 3 / 2 := by
  have h := inFrameBytes_lt c
  unfold inFrameBytes at h
  rw [inputSizeOk, beq_iff_eq, ← BitVec.toNat_inj, BitVec.toNat_ofNat, inFrameBytes, Nat.mod_eq_of_lt h]

/-- The geometry of a block whose dimensions are even and whose chroma check passes: everything is
a multiple of the output's chroma grid, and no division leaves a remainder (42_plane_splitter.md R149). -/
structure Divides (g : Geometry) : Prop where
  inW_eq : g.inW = 2 * (outChW g * g.fx)
  inH_eq : g.inH = 2 * (outChH g * g.fy)
  chW_eq : chW g = outChW g * g.fx
  chH_eq : chH g = outChH g * g.fy
  outW_eq : outW g = 2 * outChW g
  outH_eq : outH g = 2 * outChH g

theorem divides_of_checks {g : Geometry} (hx : 1 ≤ g.fx) (hy : 1 ≤ g.fy) (hf : formatOk g = true)
    (hc : chromaDivOk g = true) : Divides g := by
  obtain ⟨hw2, hh2⟩ := formatOk_iff.1 hf
  obtain ⟨hch, hcw⟩ := chromaDivOk_iff.1 hc
  have hcw' : chW g = outChW g * g.fx := (Nat.div_mul_cancel (Nat.dvd_of_mod_eq_zero hcw)).symm
  have hch' : chH g = outChH g * g.fy := (Nat.div_mul_cancel (Nat.dvd_of_mod_eq_zero hch)).symm
  have hw : g.inW = 2 * (outChW g * g.fx) := by rw [← hcw', chW]; omega
  have hh : g.inH = 2 * (outChH g * g.fy) := by rw [← hch', chH]; omega
  refine ⟨hw, hh, hcw', hch', ?_, ?_⟩
  · rw [outW, hw, ← Nat.mul_assoc, Nat.mul_div_cancel _ (by omega)]
  · rw [outH, hh, ← Nat.mul_assoc, Nat.mul_div_cancel _ (by omega)]

/-- A legal geometry that passes the checks divides. -/
theorem divides_of_validate {c : Config} {len : Word} (h : validate c.geom len = none) : Divides c.geom :=
  have := validate_eq_none.1 h
  divides_of_checks c.legal.1 c.legal.2.1 this.2.1 this.2.2.2

/-- The chroma check implies the luma check (42_plane_splitter.md R149). -/
theorem Divides.lumaDivOk {g : Geometry} (h : Divides g) : lumaDivOk g = true := by
  rw [lumaDivOk_iff, h.inW_eq, h.inH_eq]
  exact ⟨by rw [← Nat.mul_assoc]; exact Nat.mul_mod_left _ _, by rw [← Nat.mul_assoc]; exact Nat.mul_mod_left _ _⟩

theorem Divides.outW_mul {g : Geometry} (h : Divides g) : outW g * g.fx = g.inW := by
  rw [h.outW_eq, h.inW_eq, Nat.mul_assoc]

theorem Divides.outH_mul {g : Geometry} (h : Divides g) : outH g * g.fy = g.inH := by
  rw [h.outH_eq, h.inH_eq, Nat.mul_assoc]

/-- The output frame is its luma plane and its chroma rows, exactly (42_plane_splitter.md R149). -/
theorem Divides.outFrameBytes_eq {g : Geometry} (h : Divides g) :
    outFrameBytes g = outYBytes g + outChH g * outChStride g := by
  have : 2 * outChW g * (2 * outChH g) * 3 = 2 * (2 * outChW g * (2 * outChH g) + outChH g * (2 * outChW g)) := by ring
  rw [outFrameBytes, outYBytes, outChStride, h.outW_eq, h.outH_eq, this, Nat.mul_div_cancel_left _ (by omega)]

/-- The input frame is its luma plane and its chroma rows, exactly (42_plane_splitter.md R149). -/
theorem Divides.inFrameBytes_eq {g : Geometry} (h : Divides g) :
    inFrameBytes g = inYBytes g + chH g * g.inW := by
  have : 2 * (outChW g * g.fx) * (2 * (outChH g * g.fy)) * 3 =
      2 * (2 * (outChW g * g.fx) * (2 * (outChH g * g.fy)) + outChH g * g.fy * (2 * (outChW g * g.fx))) := by ring
  rw [inFrameBytes, inYBytes, h.chH_eq, h.inW_eq, h.inH_eq, this, Nat.mul_div_cancel_left _ (by omega)]

/-- A row and a column inside a grid give an index inside it. -/
theorem index_lt {w h r c : Nat} (hr : r < h) (hc : c < w) : r * w + c < w * h := by
  have : (r + 1) * w ≤ h * w := Nat.mul_le_mul_right w hr
  rw [Nat.add_mul, Nat.one_mul] at this
  rw [Nat.mul_comm w h]
  omega

/-- A luma sample of the frame is a byte of IN's luma plane. -/
theorem lumaIndex_lt {g : Geometry} {r c : Nat} (hr : r < g.inH) (hc : c < g.inW) : r * g.inW + c < inYBytes g :=
  index_lt hr hc

/-- A chroma byte of the frame is a byte of IN. -/
theorem Divides.chromaIndex_lt {g : Geometry} (h : Divides g) {rc cc ch : Nat} (hr : rc < chH g)
    (hc : cc < chW g) (hch : ch < 2) : inYBytes g + rc * g.inW + (2 * cc + ch) < inFrameBytes g := by
  have hw : 2 * chW g = g.inW := by rw [h.chW_eq, ← h.inW_eq]
  have := index_lt (w := g.inW) (c := 2 * cc + ch) hr (by omega)
  rw [h.inFrameBytes_eq, Nat.mul_comm (chH g)]
  omega

/-- A sample of a block is a sample of the plane. -/
theorem blockIndex_lt {f out r i : Nat} (hr : r < out) (hi : i < f) : r * f + i < out * f := by
  have := index_lt (w := f) (c := i) hr hi
  rwa [Nat.mul_comm f] at this

end Sys2Proof.Machine
end

