-- ==== Sys2Proof/Laws/Packer.lean ====
section
/-! SUPPORT. The packer writes the bytes of a frame of the right shape one after another from OUT[0]. -/

namespace Sys2Proof.Machine

theorem packRow_append (xs ys : List Byte) (a : Nat) (p : Packed) :
    packRow (xs ++ ys) a p = packRow ys (a + xs.length) (packRow xs a p) := by
  induction xs generalizing a p with
  | nil => rfl
  | cons x xs ih => simp only [List.cons_append, packRow, ih, List.length_cons]; congr 1; omega

@[simp] theorem packRow_count (xs : List Byte) (a : Nat) (p : Packed) :
    (packRow xs a p).count = p.count + xs.length := by
  induction xs generalizing a p with
  | nil => rfl
  | cons x xs ih => rw [packRow, ih]; simp only [packByte, List.length_cons]; omega

/-- A packed row reads as its bytes, and every other address as before. -/
theorem packRow_read (xs : List Byte) (a : Nat) (p : Packed) (x : Nat) :
    Memory.read (packRow xs a p).mem x =
      if a ≤ x ∧ x < a + xs.length then xs[x - a]? else Memory.read p.mem x := by
  induction xs generalizing a p with
  | nil => simp [packRow]
  | cons y ys ih =>
    rw [packRow, ih]
    simp only [packByte, List.length_cons]
    by_cases hx : x = a
    · subst hx
      rw [if_neg (by omega), if_pos (by omega)]
      simp
    · by_cases h : a + 1 ≤ x ∧ x < a + 1 + ys.length
      · rw [if_pos h, if_pos (by omega), show x - a = (x - (a + 1)) + 1 by omega, List.getElem?_cons_succ]
      · rw [if_neg h, if_neg (by omega), Memory.read_write_other _ _ _ _ hx]

theorem packRow_wf {p : Packed} (h : Memory.wf p.mem) (xs : List Byte) (a : Nat) : Memory.wf (packRow xs a p).mem := by
  induction xs generalizing a p with
  | nil => exact h
  | cons x xs ih => exact ih (p := packByte a x p) (Memory.write_wf h a x) _

theorem packRow_within {p : Packed} {cap : Nat} (h : Memory.Within p.mem cap) (xs : List Byte) (a : Nat)
    (hcap : a + xs.length ≤ cap) : Memory.Within (packRow xs a p).mem cap := by
  induction xs generalizing a p with
  | nil => exact h
  | cons x xs ih =>
    rw [List.length_cons] at hcap
    exact ih (p := packByte a x p) (Memory.write_within h (by omega) x) _ (by omega)

theorem length_flatten_uniform {α : Type} {w : Nat} {rows : List (List α)} (h : ∀ row ∈ rows, row.length = w) :
    rows.flatten.length = rows.length * w := by
  induction rows with
  | nil => simp
  | cons row rows ih =>
    simp only [List.flatten_cons, List.length_append, List.length_cons, Nat.add_mul, Nat.one_mul,
      ih fun r hr => h r (List.mem_cons_of_mem _ hr), h row (by simp)]
    omega

/-- Sample (r, c) of a plane with rows of w samples is sample r * w + c of its bytes. -/
theorem getElem?_flatten_uniform {α : Type} {w : Nat} {rows : List (List α)} (h : ∀ row ∈ rows, row.length = w)
    {r c : Nat} (hc : c < w) : rows.flatten[r * w + c]? = rows[r]?.bind (·[c]?) := by
  induction rows generalizing r with
  | nil => simp
  | cons row rows ih =>
    have hrow := h row (by simp)
    rw [List.flatten_cons]
    cases r with
    | zero => rw [Nat.zero_mul, Nat.zero_add, List.getElem?_append_left (by omega)]; simp
    | succ r =>
      rw [List.getElem?_append_right (by rw [hrow, Nat.add_mul]; omega), hrow, Nat.add_mul, Nat.one_mul,
        show r * w + w + c - w = r * w + c by omega, ih fun r hr => h r (List.mem_cons_of_mem _ hr)]
      simp

/-- Rows as long as the stride are packed one after another. -/
theorem packRows_eq {base stride : Nat} {rows : List (List Byte)} (h : ∀ row ∈ rows, row.length = stride)
    (r : Nat) (p : Packed) : packRows base stride rows r p = packRow rows.flatten (base + r * stride) p := by
  induction rows generalizing r p with
  | nil => rfl
  | cons row rows ih =>
    rw [packRows, ih fun r hr => h r (List.mem_cons_of_mem _ hr), List.flatten_cons, packRow_append, h row (by simp)]
    congr 1
    rw [Nat.add_mul, Nat.one_mul]
    omega

@[simp] theorem length_interleave (row : List (Byte × Byte)) : (interleave row).length = 2 * row.length := by
  induction row with
  | nil => rfl
  | cons c row ih => simp only [interleave, List.length_cons, ih]; omega

/-- U of ChromaSample cc is at the even offset 2 * cc and V at the odd one. -/
theorem getElem?_interleave (row : List (Byte × Byte)) (cc : Nat) :
    (interleave row)[2 * cc]? = row[cc]?.map Prod.fst ∧ (interleave row)[2 * cc + 1]? = row[cc]?.map Prod.snd := by
  induction row generalizing cc with
  | nil => simp [interleave]
  | cons c row ih =>
    cases cc with
    | zero => simp [interleave]
    | succ cc =>
      have := ih cc
      simpa [interleave, show 2 * (cc + 1) = 2 * cc + 1 + 1 by omega] using this

/-- A reduced frame has the shape of the geometry's output (43_average_reducer.md R160, 44_skip_reducer.md R185). -/
structure Reduced.Shaped (g : Geometry) (f : Reduced) : Prop where
  lumaRows : f.luma.length = outH g
  lumaCols : ∀ row ∈ f.luma, row.length = outW g
  chromaRows : f.chroma.length = outChH g
  chromaCols : ∀ row ∈ f.chroma, row.length = outChW g

/-- The bytes of a reduced frame in the order they are packed. -/
def Reduced.bytes (f : Reduced) : List Byte := f.luma.flatten ++ (f.chroma.map interleave).flatten

theorem Reduced.Shaped.chromaStride {g : Geometry} {f : Reduced} (h : f.Shaped g) :
    ∀ row ∈ f.chroma.map interleave, row.length = outChStride g := by
  intro row hrow
  obtain ⟨r, hr, rfl⟩ := List.mem_map.1 hrow
  rw [length_interleave, h.chromaCols r hr, outChStride]

theorem Reduced.Shaped.length_luma {g : Geometry} {f : Reduced} (h : f.Shaped g) :
    f.luma.flatten.length = outYBytes g := by
  rw [length_flatten_uniform h.lumaCols, h.lumaRows, outYBytes, Nat.mul_comm]

theorem Reduced.Shaped.length_bytes {g : Geometry} {f : Reduced} (h : f.Shaped g) :
    f.bytes.length = outYBytes g + outChH g * outChStride g := by
  rw [Reduced.bytes, List.length_append, h.length_luma, length_flatten_uniform h.chromaStride, List.length_map,
    h.chromaRows]

/-- Packing a frame of the right shape is packing its bytes in one row from OUT[0] (45_output_packer.md R195, R196). -/
theorem pack_eq {g : Geometry} {f : Reduced} (h : f.Shaped g) (out : Memory) :
    pack g f out = packRow f.bytes 0 ⟨out, 0⟩ := by
  rw [pack, packRows_eq h.chromaStride, packRows_eq h.lumaCols, Reduced.bytes, packRow_append, h.length_luma]
  simp

/-- What OUT reads as after packing a frame of the right shape. -/
theorem pack_read {g : Geometry} {f : Reduced} (h : f.Shaped g) (out : Memory) (x : Nat) :
    Memory.read (pack g f out).mem x = if x < f.bytes.length then f.bytes[x]? else Memory.read out x := by
  rw [pack_eq h, packRow_read]
  simp

/-- The packed count (45_output_packer.md R197). -/
theorem pack_count {g : Geometry} {f : Reduced} (h : f.Shaped g) (out : Memory) :
    (pack g f out).count = outYBytes g + outChH g * outChStride g := by
  rw [pack_eq h, packRow_count, h.length_bytes, Nat.zero_add]

/-- Once Validate has passed the packed count is OUT_FRAME_BYTES, so INTERNAL_SIZE cannot occur (45_output_packer.md R197). -/
theorem pack_count_of_divides {g : Geometry} {f : Reduced} (hg : Divides g) (h : f.Shaped g) (out : Memory) :
    (pack g f out).count = outFrameBytes g := by rw [pack_count h, hg.outFrameBytes_eq]

/-- The luma byte at row r and column c of the packed bytes. -/
theorem Reduced.Shaped.bytes_luma {g : Geometry} {f : Reduced} (h : f.Shaped g) {r c : Nat} (hr : r < outH g)
    (hc : c < outW g) : f.bytes[r * outW g + c]? = f.luma[r]?.bind (·[c]?) := by
  have := index_lt hr hc
  rw [Reduced.bytes, List.getElem?_append_left (by rw [h.length_luma]; exact this),
    getElem?_flatten_uniform h.lumaCols hc]

/-- The chroma byte at offset b of chroma row rc of the packed bytes. -/
theorem Reduced.Shaped.bytes_chroma {g : Geometry} {f : Reduced} (h : f.Shaped g) {rc b : Nat}
    (hb : b < outChStride g) :
    f.bytes[outYBytes g + rc * outChStride g + b]? = f.chroma[rc]?.bind (fun row => (interleave row)[b]?) := by
  rw [Reduced.bytes, List.getElem?_append_right (by rw [h.length_luma]; omega), h.length_luma,
    show outYBytes g + rc * outChStride g + b - outYBytes g = rc * outChStride g + b by omega,
    getElem?_flatten_uniform h.chromaStride hb, List.getElem?_map]
  cases f.chroma[rc]? <;> rfl

end Sys2Proof.Machine
end

