-- ==== Sys2Proof/Laws/PerInstr.lean ====
section
/-! SUPPORT. One lemma per instruction: its encoding is a request of a legal kind, at the size and in the
space 30_encoding.md R83 gives it. -/

namespace Sys2Proof.Laws.EncodedKind

/-- The row of 30_encoding.md R83 an instruction is a request of; a command is a REG_WRITE (R85). -/
def kindOf : Instr → Kind
  | .regRead _ => .regRead
  | .regWrite _ _ | .nop | .startAvg | .startSkip | .clearStatus => .regWrite
  | .inReadB _ => .inReadB
  | .inReadH _ => .inReadH
  | .inReadW _ => .inReadW
  | .inWriteB _ _ => .inWriteB
  | .inWriteH _ _ => .inWriteH
  | .inWriteW _ _ => .inWriteW
  | .outReadB _ => .outReadB
  | .outReadH _ => .outReadH
  | .outReadW _ => .outReadW

/-- The encoded KIND matches the instruction's row on all five bits, and a request that writes nothing
has WDATA 0. -/
def Statement (i : Instr) : Prop :=
  Kind.ofBits (encode i).kind = some (kindOf i) ∧ ((kindOf i).bits.getLsbD 2 = false → (encode i).wdata = 0)

theorem regRead (addr : Word) : Statement (.regRead addr) := ⟨rfl, fun _ => rfl⟩
theorem regWrite (addr wdata : Word) : Statement (.regWrite addr wdata) := ⟨rfl, by simp [kindOf, Kind.bits]⟩
theorem inReadB (addr : Word) : Statement (.inReadB addr) := ⟨rfl, fun _ => rfl⟩
theorem inReadH (addr : Word) : Statement (.inReadH addr) := ⟨rfl, fun _ => rfl⟩
theorem inReadW (addr : Word) : Statement (.inReadW addr) := ⟨rfl, fun _ => rfl⟩
theorem inWriteB (addr wdata : Word) : Statement (.inWriteB addr wdata) := ⟨rfl, by simp [kindOf, Kind.bits]⟩
theorem inWriteH (addr wdata : Word) : Statement (.inWriteH addr wdata) := ⟨rfl, by simp [kindOf, Kind.bits]⟩
theorem inWriteW (addr wdata : Word) : Statement (.inWriteW addr wdata) := ⟨rfl, by simp [kindOf, Kind.bits]⟩
theorem outReadB (addr : Word) : Statement (.outReadB addr) := ⟨rfl, fun _ => rfl⟩
theorem outReadH (addr : Word) : Statement (.outReadH addr) := ⟨rfl, fun _ => rfl⟩
theorem outReadW (addr : Word) : Statement (.outReadW addr) := ⟨rfl, fun _ => rfl⟩
theorem nop : Statement .nop := ⟨rfl, by simp [kindOf, Kind.bits]⟩
theorem startAvg : Statement .startAvg := ⟨rfl, by simp [kindOf, Kind.bits]⟩
theorem startSkip : Statement .startSkip := ⟨rfl, by simp [kindOf, Kind.bits]⟩
theorem clearStatus : Statement .clearStatus := ⟨rfl, by simp [kindOf, Kind.bits]⟩

end Sys2Proof.Laws.EncodedKind
end

