-- ==== Sys2Proof/Laws/Reduce.lean ====
section
/-! SUPPORT. The reducers: exact block arithmetic, the shape and the samples of a reduced frame, the
order its cells are read in. -/

namespace Sys2Proof.Machine

/-! ### Block arithmetic (43_average_reducer.md R161 to R164) -/

/-- The exact sum of h rows of w samples. -/
def gridSum (f : Nat → Nat → Byte) (h w : Nat) : Nat :=
  ((List.range h).map fun i => ((List.range w).map fun j => (f i j).toNat).sum).sum

theorem sum_map_range_le (f : Nat → Nat) (b n : Nat) (h : ∀ i, i < n → f i ≤ b) :
    ((List.range n).map f).sum ≤ n * b := by
  induction n with
  | zero => simp
  | succ n ih =>
    have := ih fun i hi => h i (by omega)
    have := h n (by omega)
    simp only [List.range_succ, List.map_append, List.map_cons, List.map_nil, List.sum_append, List.sum_cons,
      List.sum_nil, Nat.add_mul, Nat.one_mul]
    omega

theorem le_sum_map_range (f : Nat → Nat) (b n : Nat) (h : ∀ i, i < n → b ≤ f i) :
    n * b ≤ ((List.range n).map f).sum := by
  induction n with
  | zero => simp
  | succ n ih =>
    have := ih fun i hi => h i (by omega)
    have := h n (by omega)
    simp only [List.range_succ, List.map_append, List.map_cons, List.map_nil, List.sum_append, List.sum_cons,
      List.sum_nil, Nat.add_mul, Nat.one_mul]
    omega

theorem gridSum_le (f : Nat → Nat → Byte) (b h w : Nat) (hb : ∀ i j, i < h → j < w → (f i j).toNat ≤ b) :
    gridSum f h w ≤ w * h * b := by
  have := sum_map_range_le (fun i => ((List.range w).map fun j => (f i j).toNat).sum) (w * b) h fun i hi =>
    sum_map_range_le _ b w fun j hj => hb i j hi hj
  rwa [show w * h * b = h * (w * b) by ring]

theorem le_gridSum (f : Nat → Nat → Byte) (b h w : Nat) (hb : ∀ i j, i < h → j < w → b ≤ (f i j).toNat) :
    w * h * b ≤ gridSum f h w := by
  have := le_sum_map_range (fun i => ((List.range w).map fun j => (f i j).toNat).sum) (w * b) h fun i hi =>
    le_sum_map_range _ b w fun j hj => hb i j hi hj
  rwa [show w * h * b = h * (w * b) by ring]

theorem foldl_acc (f : Nat → Byte) (n : Nat) (acc : Acc) :
    (List.range n).foldl (fun a k => a + (f k).setWidth 16) acc =
      acc + BitVec.ofNat 16 ((List.range n).map fun k => (f k).toNat).sum := by
  induction n with
  | zero => simp
  | succ n ih =>
    rw [List.range_succ, List.foldl_append, ih]
    simp only [List.foldl_cons, List.foldl_nil, List.map_append, List.map_cons, List.map_nil, List.sum_append,
      List.sum_cons, List.sum_nil, Nat.add_zero, BitVec.ofNat_add, BitVec.add_assoc]
    congr 2
    exact BitVec.eq_of_toNat_eq (by simp)

theorem foldl_acc_rows (g : Nat → Nat) (n : Nat) (acc : Acc) :
    (List.range n).foldl (fun a k => a + BitVec.ofNat 16 (g k)) acc =
      acc + BitVec.ofNat 16 ((List.range n).map g).sum := by
  induction n with
  | zero => simp
  | succ n ih =>
    rw [List.range_succ, List.foldl_append, ih]
    simp only [List.foldl_cons, List.foldl_nil, List.map_append, List.map_cons, List.map_nil, List.sum_append,
      List.sum_cons, List.sum_nil, Nat.add_zero, BitVec.ofNat_add, BitVec.add_assoc]

/-- The accumulator holds the block's exact sum, mod 2^16 (43_average_reducer.md R161). -/
theorem blockSum_ok {p : Plane} {f : Nat → Nat → Byte} {fy fx r c : Nat}
    (h : ∀ i j, i < fy → j < fx → p (r * fy + i) (c * fx + j) = .ok (f i j)) :
    blockSum p fy fx r c = .ok (BitVec.ofNat 16 (gridSum f fy fx)) := by
  have inner : ∀ i (acc : Acc), i < fy →
      forLoop (fun j acc => accumulate acc (p (r * fy + i) (c * fx + j))) fx 0 acc =
        .ok (acc + BitVec.ofNat 16 ((List.range fx).map fun j => (f i j).toNat).sum) := by
    intro i acc hi
    rw [forLoop_ok (g := fun a j => a + (f i j).setWidth 16) fx 0 acc fun k acc hk => by
      rw [Nat.zero_add, h i k hi hk]; rfl]
    simp only [Nat.zero_add, foldl_acc]
  rw [blockSum, forLoop_ok (g := fun a i => a + BitVec.ofNat 16 ((List.range fx).map fun j => (f i j).toNat).sum)
    fy 0 0 fun k acc hk => by simpa only [Nat.zero_add] using inner k acc hk]
  simp only [Nat.zero_add, foldl_acc_rows, gridSum]
  simp

/-- The rounding divide of a block's sum truncates nothing (43_average_reducer.md R162 to R164). -/
theorem roundDivide_exact {n total : Nat} (h1 : 1 ≤ n) (hn : n ≤ 256) (ht : total ≤ 255 * n) :
    roundDivide n (BitVec.ofNat 16 total) = BitVec.ofNat 8 ((total + n / 2) / n) ∧ (total + n / 2) / n ≤ 255 := by
  have hs : total + n / 2 < 65536 := by omega
  constructor
  · rw [roundDivide, BitVec.toNat_add, BitVec.toNat_ofNat, BitVec.toNat_ofNat]
    congr 2
    omega
  · have : total + n / 2 < 256 * n := by omega
    exact Nat.lt_succ_iff.1 ((Nat.div_lt_iff_lt_mul (by omega)).2 this)

theorem blockN_pos (c : Config) : 1 ≤ blockN c.geom := Nat.mul_pos c.legal.1 c.legal.2.1

theorem blockN_le (c : Config) : blockN c.geom ≤ 256 := c.legal.2.2.1

/-- The block average in exact arithmetic (43_average_reducer.md R162 to R164). -/
theorem blockAvg_ok {c : Config} {p : Plane} {f : Nat → Nat → Byte} {r col : Nat}
    (h : ∀ i j, i < c.geom.fy → j < c.geom.fx → p (r * c.geom.fy + i) (col * c.geom.fx + j) = .ok (f i j)) :
    blockAvg c.geom p r col =
      .ok (BitVec.ofNat 8 ((gridSum f c.geom.fy c.geom.fx + blockN c.geom / 2) / blockN c.geom)) := by
  have hle : gridSum f c.geom.fy c.geom.fx ≤ 255 * blockN c.geom := by
    have := gridSum_le f 255 c.geom.fy c.geom.fx fun i j _ _ => by have := (f i j).isLt; omega
    rwa [blockN, Nat.mul_comm 255]
  rw [blockAvg, blockSum_ok h]
  exact congrArg Except.ok (roundDivide_exact (blockN_pos c) (blockN_le c) hle).1

/-! ### The reduced frame -/

@[simp] theorem pairSample_error (a : Nat) (v : Except Nat Byte) : pairSample (.error a) v = .error a := rfl

@[simp] theorem pairSample_ok (ub : Byte) (v : Except Nat Byte) : pairSample (.ok ub) v = v.map (Prod.mk ub) := rfl

theorem pairSample_eq_ok {u v : Except Nat Byte} {c : Byte × Byte} :
    pairSample u v = .ok c ↔ u = .ok c.1 ∧ v = .ok c.2 := by
  obtain ⟨ub, vb⟩ := c
  cases u <;> cases v <;> simp [pairSample, Except.map]

/-- A reduction that succeeds has the output's shape and its samples in place. -/
theorem reduceWith_eq_ok {g : Geometry} {y u v : Plane} {f : Reduced} (h : reduceWith g y u v = .ok f) :
    f.Shaped g ∧
    (∀ r c, r < outH g → c < outW g → ∃ b, y r c = .ok b ∧ f.luma[r]?.bind (·[c]?) = some b) ∧
    (∀ rc cc, rc < outChH g → cc < outChW g → ∃ ub vb, u rc cc = .ok ub ∧ v rc cc = .ok vb ∧
      f.chroma[rc]?.bind (·[cc]?) = some (ub, vb)) := by
  unfold reduceWith at h
  split at h
  · cases h
  next luma hl =>
  cases hc : collectGrid (fun rc cc => pairSample (u rc cc) (v rc cc)) (outChH g) (outChW g) with
  | error a => rw [hc] at h; cases h
  | ok chroma =>
    rw [hc] at h
    cases h
    obtain ⟨hl1, hl2, hl3⟩ := collectGrid_eq_ok hl
    obtain ⟨hc1, hc2, hc3⟩ := collectGrid_eq_ok hc
    refine ⟨⟨hl1, hl2, hc1, hc2⟩, hl3, fun rc cc hr hcc => ?_⟩
    obtain ⟨⟨ub, vb⟩, hp, hv⟩ := hc3 rc cc hr hcc
    exact ⟨ub, vb, (pairSample_eq_ok.1 hp).1, (pairSample_eq_ok.1 hp).2, hv⟩

/-- A reduction whose samples are all there succeeds, with those samples. -/
theorem reduceWith_ok {g : Geometry} {y u v : Plane} {yf uf vf : Nat → Nat → Byte}
    (hy : ∀ r c, r < outH g → c < outW g → y r c = .ok (yf r c))
    (hu : ∀ r c, r < outChH g → c < outChW g → u r c = .ok (uf r c))
    (hv : ∀ r c, r < outChH g → c < outChW g → v r c = .ok (vf r c)) :
    reduceWith g y u v = .ok
      ⟨(List.range (outH g)).map fun r => (List.range (outW g)).map (yf r),
        (List.range (outChH g)).map fun r => (List.range (outChW g)).map fun c => (uf r c, vf r c)⟩ := by
  rw [reduceWith, collectGrid_ok hy, collectGrid_ok (g := fun r c => (uf r c, vf r c)) fun r c hr hc =>
    pairSample_eq_ok.2 ⟨hu r c hr hc, hv r c hr hc⟩]
  rfl

/-- Blocks of equal samples have equal averages. -/
theorem blockAvg_congr {g : Geometry} {p q : Plane} {r c : Nat}
    (h : ∀ i j, i < g.fy → j < g.fx → p (r * g.fy + i) (c * g.fx + j) = q (r * g.fy + i) (c * g.fx + j)) :
    blockAvg g p r c = blockAvg g q r c := by
  rw [blockAvg, blockAvg]
  refine congrArg (Except.map _) (forLoop_congr g.fy 0 0 fun i acc hi => forLoop_congr g.fx 0 acc fun j a hj => ?_)
  simp only [Nat.zero_add, h i j hi hj]

/-- Planes that agree at every output position reduce alike. -/
theorem reduceWith_congr {g : Geometry} {y u v y' u' v' : Plane}
    (hy : ∀ r c, r < outH g → c < outW g → y r c = y' r c)
    (hu : ∀ r c, r < outChH g → c < outChW g → u r c = u' r c)
    (hv : ∀ r c, r < outChH g → c < outChW g → v r c = v' r c) : reduceWith g y u v = reduceWith g y' u' v' := by
  rw [reduceWith, reduceWith, collectGrid_congr hy,
    collectGrid_congr (h := outChH g) (w := outChW g) fun r c hr hc => by rw [hu r c hr hc, hv r c hr hc]]

/-- The order a reduction reads its cells in: luma, then chroma, U before V (43_average_reducer.md R165, R166). -/
theorem reduceWith_reads {g : Geometry} {m : Memory} {y u v : Plane} {ly lu lv : Nat → Nat → List Nat}
    (hy : ∀ r c, ReadsInOrder m (ly r c) (y r c)) (hu : ∀ r c, ReadsInOrder m (lu r c) (u r c))
    (hv : ∀ r c, ReadsInOrder m (lv r c) (v r c)) :
    ReadsInOrder m
      (((List.range (outH g)).flatMap fun r => (List.range (outW g)).flatMap fun c => ly r c) ++
        (List.range (outChH g)).flatMap fun r => (List.range (outChW g)).flatMap fun c => lu r c ++ lv r c)
      (reduceWith g y u v) := by
  have hpair : ∀ r c, ReadsInOrder m (lu r c ++ lv r c) (pairSample (u r c) (v r c)) := fun r c =>
    (hu r c).seq (fun e he => by rw [he, pairSample_error]) fun ub hub => by
      rw [hub, pairSample_ok]; exact (hv r c).map _
  exact (ReadsInOrder.collectGrid hy _ _).seq (fun e he => by rw [reduceWith, he]) fun luma hl => by
    rw [reduceWith, hl]; exact (ReadsInOrder.collectGrid hpair _ _).map _

/-- A block is read i outer, j inner (43_average_reducer.md R161). -/
theorem blockAvg_reads {g : Geometry} {m : Memory} {p : Plane} {addr : Nat → Nat → Nat}
    (hp : ∀ r c, ReadsInOrder m [addr r c] (p r c)) (r c : Nat) :
    ReadsInOrder m ((List.range g.fy).flatMap fun i => (List.range g.fx).map fun j => addr (r * g.fy + i) (c * g.fx + j))
      (blockAvg g p r c) := by
  have hrow : ∀ i (acc : Acc), ReadsInOrder m ((List.range g.fx).map fun j => addr (r * g.fy + i) (c * g.fx + j))
      (forLoop (fun j acc => accumulate acc (p (r * g.fy + i) (c * g.fx + j))) g.fx 0 acc) := fun i acc => by
    have := ReadsInOrder.forLoop (fun j (acc : Acc) => (hp (r * g.fy + i) (c * g.fx + j)).map fun b => acc + b.setWidth 16)
      g.fx 0 acc
    simp only [Nat.zero_add] at this
    rw [List.map_eq_flatMap]
    exact this
  have hsum := ReadsInOrder.forLoop hrow g.fy 0 (0 : Acc)
  simp only [Nat.zero_add] at hsum
  exact hsum.map _

end Sys2Proof.Machine
end

