-- ==== Sys2Proof/Laws/Step.lean ====
section
/-! SUPPORT. What the engine step, the service of a request and a step of the machine can do, said once. -/

namespace Sys2Proof.Machine

/-! ### The order an operation reads IN in -/

theorem lumaView_reads (g : Geometry) (m : Memory) (r c : Nat) :
    ReadsInOrder m [r * g.inW + c] (lumaView g m r c) := .cell m _

theorem chromaView_reads (g : Geometry) (m : Memory) (ch r c : Nat) :
    ReadsInOrder m [g.inW * g.inH + r * g.inW + (2 * c + ch)] (chromaView g m ch r c) := .cell m _

/-- AvgFrame's read order (43_average_reducer.md R165, R166). -/
theorem avgFrame_reads (g : Geometry) (m : Memory) :
    ReadsInOrder m
      (((List.range (outH g)).flatMap fun r => (List.range (outW g)).flatMap fun c =>
          (List.range g.fy).flatMap fun i => (List.range g.fx).map fun j => (r * g.fy + i) * g.inW + (c * g.fx + j)) ++
        (List.range (outChH g)).flatMap fun r => (List.range (outChW g)).flatMap fun c =>
          ((List.range g.fy).flatMap fun i => (List.range g.fx).map fun j =>
            g.inW * g.inH + (r * g.fy + i) * g.inW + (2 * (c * g.fx + j) + 0)) ++
          ((List.range g.fy).flatMap fun i => (List.range g.fx).map fun j =>
            g.inW * g.inH + (r * g.fy + i) * g.inW + (2 * (c * g.fx + j) + 1)))
      (avgFrame g m) :=
  reduceWith_reads (blockAvg_reads (lumaView_reads g m)) (blockAvg_reads (chromaView_reads g m 0))
    (blockAvg_reads (chromaView_reads g m 1))

/-- SkipFrame's read order: the selected cells alone (44_skip_reducer.md R184). -/
theorem skipFrame_reads (g : Geometry) (m : Memory) :
    ReadsInOrder m
      (((List.range (outH g)).flatMap fun r => (List.range (outW g)).flatMap fun c =>
          [r * g.fy * g.inW + c * g.fx]) ++
        (List.range (outChH g)).flatMap fun r => (List.range (outChW g)).flatMap fun c =>
          [g.inW * g.inH + r * g.fy * g.inW + (2 * (c * g.fx) + 0)] ++
          [g.inW * g.inH + r * g.fy * g.inW + (2 * (c * g.fx) + 1)])
      (skipFrame g m) :=
  reduceWith_reads (fun _ _ => lumaView_reads g m _ _) (fun _ _ => chromaView_reads g m 0 _ _)
    (fun _ _ => chromaView_reads g m 1 _ _)

/-- A computation that fails in an order of cells below n fails at an unwritten cell below n. -/
theorem ReadsInOrder.error_lt {α : Type} {m : Memory} {L : List Nat} {c : Except Nat α} {n a : Nat}
    (h : ReadsInOrder m L c) (hL : ∀ x ∈ L, x < n) (ha : c = .error a) : Memory.read m a = none ∧ a < n := by
  unfold ReadsInOrder at h
  split at h
  · next x hx =>
    obtain rfl : x = a := Except.error.inj (h.symm.trans ha)
    exact ⟨by simpa using List.find?_some hx, hL _ (List.mem_of_find?_eq_some hx)⟩
  · obtain ⟨v, hv⟩ := h
    rw [hv] at ha
    cases ha

theorem lumaRead_lt {g : Geometry} (hg : Divides g) {r c i j : Nat} (hr : r < outH g) (hc : c < outW g)
    (hi : i < g.fy) (hj : j < g.fx) : (r * g.fy + i) * g.inW + (c * g.fx + j) < inFrameBytes g := by
  have h1 := blockIndex_lt hr hi
  have h2 := blockIndex_lt hc hj
  rw [hg.outH_mul] at h1
  rw [hg.outW_mul] at h2
  have := lumaIndex_lt h1 h2
  rw [hg.inFrameBytes_eq]
  omega

theorem chromaRead_lt {g : Geometry} (hg : Divides g) {r c i j ch : Nat} (hr : r < outChH g) (hc : c < outChW g)
    (hi : i < g.fy) (hj : j < g.fx) (hch : ch < 2) :
    g.inW * g.inH + (r * g.fy + i) * g.inW + (2 * (c * g.fx + j) + ch) < inFrameBytes g := by
  have h1 := blockIndex_lt hr hi
  have h2 := blockIndex_lt hc hj
  rw [← hg.chH_eq] at h1
  rw [← hg.chW_eq] at h2
  exact hg.chromaIndex_lt h1 h2 hch

/-- A reduction that fails names an unwritten cell of the frame. -/
theorem reduceFrame_error {m : Mode} {c : Config} {mem : Memory} {a : Nat} (hg : Divides c.geom)
    (h : reduceFrame m c.geom mem = .error a) : Memory.read mem a = none ∧ a < inFrameBytes c.geom := by
  have avg : ∀ a, avgFrame c.geom mem = .error a → Memory.read mem a = none ∧ a < inFrameBytes c.geom := fun a ha => by
    refine (avgFrame_reads c.geom mem).error_lt (fun x hx => ?_) ha
    simp only [List.mem_append, List.mem_flatMap, List.mem_range, List.mem_map] at hx
    rcases hx with ⟨r, hr, cc, hc, i, hi, j, hj, rfl⟩ | ⟨r, hr, cc, hc, ⟨i, hi, j, hj, rfl⟩ | ⟨i, hi, j, hj, rfl⟩⟩
    · exact lumaRead_lt hg hr hc hi hj
    · exact chromaRead_lt hg hr hc hi hj (by omega)
    · exact chromaRead_lt hg hr hc hi hj (by omega)
  have skip : ∀ a, skipFrame c.geom mem = .error a → Memory.read mem a = none ∧ a < inFrameBytes c.geom := fun a ha => by
    refine (skipFrame_reads c.geom mem).error_lt (fun x hx => ?_) ha
    have hx1 := c.legal.1
    have hy1 := c.legal.2.1
    simp only [List.mem_append, List.mem_flatMap, List.mem_range, List.mem_singleton] at hx
    rcases hx with ⟨r, hr, cc, hc, rfl⟩ | ⟨r, hr, cc, hc, rfl | rfl⟩
    · simpa using lumaRead_lt hg (i := 0) (j := 0) hr hc (by omega) (by omega)
    · simpa using chromaRead_lt hg (i := 0) (j := 0) (ch := 0) hr hc (by omega) (by omega) (by omega)
    · simpa using chromaRead_lt hg (i := 0) (j := 0) (ch := 1) hr hc (by omega) (by omega) (by omega)
  cases m with
  | average => exact avg a h
  | skip | none => exact skip a h

/-- A reduction that succeeds has the output's shape. -/
theorem reduceFrame_shaped {m : Mode} {g : Geometry} {mem : Memory} {f : Reduced}
    (h : reduceFrame m g mem = .ok f) : f.Shaped g := by
  cases m with
  | average => exact (reduceWith_eq_ok (show avgFrame g mem = .ok f from h)).1
  | skip | none => exact (reduceWith_eq_ok (show skipFrame g mem = .ok f from h)).1

/-! ### The engine step -/

/-- The end of an operation whose Validate passed: the size check holds and the operation completes
(45_output_packer.md R197, 41_commands.md R128). -/
theorem finish_eq {s : State} {f : Reduced} (hg : Divides s.cfg.geom) (hf : f.Shaped s.cfg.geom) :
    finish (pack s.cfg.geom f s.outMem) s =
      { s with
        status := ⟨false, true, false, .none, s.status.mode, .none⟩
        outLen := BitVec.ofNat 32 (outFrameBytes s.cfg.geom)
        outMem := (pack s.cfg.geom f s.outMem).mem } := by
  have hc := pack_count_of_divides hg hf s.outMem
  unfold finish
  rw [if_neg (by simpa using hc), hc]
  rfl

/-- The one inversion lemma of OPERATION: it fails validation, or it packs a reduced frame and completes. -/
theorem operation_next {s t : State} (h : operation s = .next t) :
    (∃ code plane, validate s.cfg.geom s.inLen = some (code, plane) ∧ t = opError code plane s) ∨
    (validate s.cfg.geom s.inLen = none ∧ Divides s.cfg.geom ∧ ∃ f, reduceFrame s.status.mode s.cfg.geom s.inMem = .ok f ∧
      f.Shaped s.cfg.geom ∧
      t = { s with
        status := ⟨false, true, false, .none, s.status.mode, .none⟩
        outLen := BitVec.ofNat 32 (outFrameBytes s.cfg.geom)
        outMem := (pack s.cfg.geom f s.outMem).mem }) := by
  unfold operation at h
  split at h
  · next code plane hv => cases h; exact .inl ⟨code, plane, hv, rfl⟩
  · next hv =>
    have hg := divides_of_validate hv
    split at h
    · cases h
    · next f hf => cases h; exact .inr ⟨hv, hg, f, hf, reduceFrame_shaped hf, finish_eq hg (reduceFrame_shaped hf)⟩

/-- OPERATION faults only on an unwritten cell of a frame that passed validation. -/
theorem operation_fault {s : State} {e : Fault} (h : operation s = .fault e) :
    validate s.cfg.geom s.inLen = none ∧ ∃ a, e = .unwrittenRead .inp a ∧
      reduceFrame s.status.mode s.cfg.geom s.inMem = .error a ∧
      Memory.read s.inMem a = none ∧ a < inFrameBytes s.cfg.geom := by
  unfold operation at h
  split at h
  · cases h
  · next hv =>
    split at h
    · next a ha =>
      cases h
      obtain ⟨h1, h2⟩ := reduceFrame_error (divides_of_validate hv) ha
      exact ⟨hv, a, rfl, ha, h1, h2⟩
    · cases h

theorem operation_not_refused (s : State) (q : Refusal) : operation s ≠ .refused q := by
  unfold operation
  split
  · simp
  · split <;> simp

theorem engineStep_busy {s : State} (h : s.status.busy = true) : engineStep s = operation s := by simp [engineStep, h]

theorem engineStep_idle {s : State} (h : s.status.busy = false) : engineStep s = .next s := by simp [engineStep, h]

/-- A validation failure has a code, and a plane exactly for SHAPE_DIVISIBILITY (60_exceptions.md R214). -/
theorem validate_some {g : Geometry} {len : Word} {code : ErrCode} {plane : ErrPlane}
    (h : validate g len = some (code, plane)) :
    (code = .inputSize ∧ plane = .none) ∨ (code = .shapeDivisibility ∧ plane ≠ .none) := by
  unfold validate at h
  split_ifs at h <;> cases h <;> simp

/-! ### Serving a request and stepping -/

/-- What serving a request can do when it answers a next state. -/
theorem serveRequest_next {h : Hrd} {s t : State} (hs : serveRequest h s = .next t) :
    (∃ r, t = { s with response := some r }) ∨ ∃ i, decode h = .ok i ∧ ExecEffect s i t := by
  unfold serveRequest at hs
  split at hs
  · next i hi => exact .inr ⟨i, hi, exec_effect hs⟩
  · cases hs; exact .inl ⟨_, rfl⟩

/-- The one inversion lemma of step: it serves a request, gives the engine its turn, or resets. -/
theorem step_next {s t : State} (h : step s = .next t) :
    (∃ r rest, s.inputs = .request r :: rest ∧ serveRequest r { s with inputs := rest } = .next t) ∨
    ((s.inputs = [] ∨ ∃ rest, s.inputs = .engine :: rest) ∧ engineStep { s with inputs := s.inputs.tail } = .next t) ∨
    (∃ rest, s.inputs = .reset :: rest ∧ t = resetAction { s with inputs := rest }) := by
  unfold step at h
  split at h
  · next hi =>
    refine .inr (.inl ⟨.inl hi, ?_⟩)
    rw [hi, List.tail_nil, ← hi]
    exact h
  · next r rest hi => exact .inl ⟨r, rest, hi, h⟩
  · next rest hi => exact .inr (.inl ⟨.inr ⟨rest, hi⟩, by rw [hi]; exact h⟩)
  · next rest hi => cases h; exact .inr (.inr ⟨rest, hi, rfl⟩)

/-! ### Runs -/

theorem run_of_step (M : Host.Core) (s : M.State) (k : Nat) :
    (∀ t, M.step s = .next t → M.run (k + 1) s = M.run k t) ∧
    (∀ f, M.step s = .fault f → M.run (k + 1) s = .fault f) ∧
    (∀ q, M.step s = .refused q → M.run (k + 1) s = .refused q) := by
  refine ⟨fun t h => ?_, fun f h => ?_, fun q h => ?_⟩ <;> rw [Host.Core.run, h]

theorem run_zero (s : State) : Host.Core.run Sys2Proof.core 0 s = .next s := rfl

theorem run_of_next {s t : State} (h : step s = .next t) (k : Nat) :
    Host.Core.run Sys2Proof.core (k + 1) s = Host.Core.run Sys2Proof.core k t :=
  (run_of_step Sys2Proof.core s k).1 t h

theorem run_of_fault {s : State} {f : Fault} (h : step s = .fault f) (k : Nat) :
    Host.Core.run Sys2Proof.core (k + 1) s = .fault f :=
  (run_of_step Sys2Proof.core s k).2.1 f h

theorem run_of_refused {s : State} {q : Refusal} (h : step s = .refused q) (k : Nat) :
    Host.Core.run Sys2Proof.core (k + 1) s = .refused q :=
  (run_of_step Sys2Proof.core s k).2.2 q h

end Sys2Proof.Machine
end

