-- ==== Sys2Proof/Tests/Slice0.lean ====
section
/-! SUPPORT. Tests of the model, and a witness for the hypotheses of every statement. Every expected
value is one of spec/ itself: the encodings of 30_encoding.md, the vectors of 95_test_vectors.md and
the tables of the rules, each named at the test. -/

namespace Sys2Proof.Tests
open Sys2Proof.Machine Sys2Proof.Claims

/-! ### Small instances (95_test_vectors.md: T6, T4, T64, T10, T7, T32) -/

/-- An instance just after reset. -/
def inst (w h fx fy : Nat) (ok : Geometry.Legal ⟨w, h, fx, fy⟩) : State :=
  { State.reset with cfg := ⟨⟨w, h, fx, fy⟩, ok⟩ }

def t6 : State := inst 6 6 3 3 (by decide)
def t4 : State := inst 4 4 2 2 (by decide)

/-- A memory that holds these bytes from address 0 on. -/
def cells (l : List Byte) : Memory := (List.range l.length).zip l

/-- The frame F6 of program P1. -/
def f6 : List Byte :=
  [10, 20, 30, 255, 255, 255] ++ [40, 50, 60, 255, 255, 254] ++ [70, 80, 95, 255, 255, 255] ++
  [0, 0, 0, 1, 2, 3] ++ [0, 0, 0, 4, 5, 6] ++ [0, 0, 9, 7, 8, 9] ++
  [100, 200, 101, 200, 102, 200] ++ [103, 200, 104, 200, 105, 200] ++ [106, 200, 107, 200, 112, 205]

/-- The frame of vector A2. -/
def f4 : List Byte :=
  [0, 1, 1, 1] ++ [0, 1, 1, 2] ++ [2, 2, 3, 3] ++ [2, 2, 3, 4] ++ [0, 255, 1, 254] ++ [1, 255, 1, 254]

/-- An operation in flight. -/
def busy (s : State) (m : Mode) (inLen : Word) (frame : List Byte) : State :=
  { s with status := Status.started m, inLen := inLen, inMem := cells frame }

def busy6 (m : Mode) : State := busy t6 m 54 f6
def busy4 (m : Mode) : State := busy t4 m 24 f4

/-- The next state, where there is one. -/
def nextOf (o : Host.Outcome State Fault Refusal) : Option State :=
  match o with
  | .next t => some t
  | .fault _ => none
  | .refused _ => none

/-- The response of the transaction just served. -/
def resp (o : Host.Outcome State Fault Refusal) : Option Response := (nextOf o).bind State.response

theorem next_of_isSome {o : Host.Outcome State Fault Refusal} (h : (nextOf o).isSome = true) : ∃ t, o = .next t := by
  cases o with
  | next t => exact ⟨t, rfl⟩
  | fault f => cases h
  | refused q => cases h

/-! ### Well-formedness (log entry 10): a command word written to CTRL as a REG_WRITE is refused -/

theorem test_wf_refuses_nop : (Instr.regWrite 0x04 0x0).wellFormed = false := by decide
theorem test_wf_refuses_startAvg : (Instr.regWrite 0x04 0x1).wellFormed = false := by decide
theorem test_wf_refuses_startSkip : (Instr.regWrite 0x04 0x2).wellFormed = false := by decide
theorem test_wf_refuses_clearStatus : (Instr.regWrite 0x04 0x3).wellFormed = false := by decide
theorem test_wf_accepts_illegal_command : (Instr.regWrite 0x04 0x4).wellFormed = true := by decide

/-! ### Decoding: every constructor from its bits, KIND = SPACE, WR, SIZE (30_encoding.md R81, R83) -/

theorem test_decode_regRead : decodeTableWord 8 0b00010 = some (.regRead 0) := by decide
theorem test_decode_regWrite : decodeTableWord 8 0b00110 = some (.regWrite 0 0) := by decide
theorem test_decode_inReadB : decodeTableWord 8 0b01000 = some (.inReadB 0) := by decide
theorem test_decode_inReadH : decodeTableWord 8 0b01001 = some (.inReadH 0) := by decide
theorem test_decode_inReadW : decodeTableWord 8 0b01010 = some (.inReadW 0) := by decide
theorem test_decode_inWriteB : decodeTableWord 8 0b01100 = some (.inWriteB 0 0) := by decide
theorem test_decode_inWriteH : decodeTableWord 8 0b01101 = some (.inWriteH 0 0) := by decide
theorem test_decode_inWriteW : decodeTableWord 8 0b01110 = some (.inWriteW 0 0) := by decide
theorem test_decode_outReadB : decodeTableWord 8 0b10000 = some (.outReadB 0) := by decide
theorem test_decode_outReadH : decodeTableWord 8 0b10001 = some (.outReadH 0) := by decide
theorem test_decode_outReadW : decodeTableWord 8 0b10010 = some (.outReadW 0) := by decide
/-- 30_encoding.md R85, CMD in bits 3:0. -/
theorem test_decode_nop : decodeTableWord 32 0b0000 = some .nop := by decide
theorem test_decode_startAvg : decodeTableWord 32 0b0001 = some .startAvg := by decide
theorem test_decode_startSkip : decodeTableWord 32 0b0010 = some .startSkip := by decide
theorem test_decode_clearStatus : decodeTableWord 32 0b0011 = some .clearStatus := by decide
/-- Vectors K7 and K8: the reserved bits are part of the match. -/
theorem test_decode_reserved_bits :
    decodeTableWord 32 0x00000011 = some (.regWrite 0x04 0x11) ∧
    decodeTableWord 32 0x80000001 = some (.regWrite 0x04 0x80000001) := by decide
/-- Vectors H7 to H9: a REG byte read, an OUT byte write and SPACE = 3 are illegal kinds. -/
theorem test_decode_illegal_kinds :
    decodeTableWord 8 0b00000 = none ∧ decodeTableWord 8 0b10100 = none ∧ decodeTableWord 8 0b11000 = none := by decide
/-- The request [0x0E 0x00000004 0x3228FFFF] of program P1, with every field in its place. -/
theorem test_decode_operands :
    decodeTableWord 72 (0x0E + 0x00000004 * 2 ^ 5 + 0x3228FFFF * 2 ^ 37) = some (.inWriteW 0x4 0x3228FFFF) := by decide

/-! ### One step from reset, as the host's table words place it -/

theorem test_fetch_regRead :
    resp (step (State.reset.withFetchWord 8 0b00010)) = some (.okay 0x4E563132) := by decide
theorem test_fetch_startAvg :
    (nextOf (step (State.reset.withFetchWord 32 0b0001))).map (·.status.word) = some 0x00000101 := by decide

/-! ### Host transactions (95_test_vectors.md 2.1) -/

/-- H1, H2. -/
theorem test_regRead_constants :
    resp (exec (.regRead 0x00) State.reset) = some (.okay 0x4E563132) ∧
    resp (exec (.regRead 0x04) State.reset) = some (.okay 0x00000000) := by decide
/-- H5, H6. -/
theorem test_regRead_bus_errors :
    resp (exec (.regRead 0x2C) State.reset) = some (.busError ⟨.outOfRange, 0x02, 0x2C⟩) ∧
    resp (exec (.regRead 0x09) State.reset) = some (.busError ⟨.misaligned, 0x02, 0x09⟩) := by decide
/-- H12, H13. -/
theorem test_regWrite_stores :
    (nextOf (exec (.regWrite 0x0C 0xFFFFFFFF) State.reset)).map (readReg · .irqEn) = some 0x00000001 ∧
    (nextOf (exec (.regWrite 0x10 0xFFFFFFFF) State.reset)).map (readReg · .inLen) = some 0xFFFFFFFF := by decide
/-- H11, and H28: ReadOnly before Busy. -/
theorem test_regWrite_readOnly :
    resp (exec (.regWrite 0x08 0x2) State.reset) = some (.busError ⟨.readOnly, 0x06, 0x08⟩) ∧
    resp (exec (.regWrite 0x14 0x0) (busy6 .average)) = some (.busError ⟨.readOnly, 0x06, 0x14⟩) := by decide
/-- H15 on the bytes of H14. -/
theorem test_inRead_little_endian :
    let s := { t6 with inMem := cells [0x11, 0x22, 0x33, 0x44] }
    resp (exec (.inReadB 3) s) = some (.okay 0x44) ∧ resp (exec (.inReadH 2) s) = some (.okay 0x00004433) ∧
    resp (exec (.inReadW 0) s) = some (.okay 0x44332211) := by decide
/-- H20: no wrap. -/
theorem test_inReadB_no_wrap :
    resp (exec (.inReadB 0xFFFFFFFF) State.reset) = some (.busError ⟨.outOfRange, 0x08, 0xFFFFFFFF⟩) := by decide
/-- H19: OutOfRange before Misaligned, in the default instance. -/
theorem test_inReadW_end :
    resp (exec (.inReadW 3455998) State.reset) = some (.busError ⟨.outOfRange, 0x0A, 0x34BBFE⟩) := by decide
/-- H22: the lowest unwritten cell. -/
theorem test_inReadH_unwritten :
    exec (.inReadH 0) { t6 with inMem := cells [7] } = .fault (.unwrittenRead .inp 1) := by rfl
/-- H16: WDATA[31:8] is ignored. -/
theorem test_inWriteB :
    (nextOf (exec (.inWriteB 5 0x1FF) State.reset)).map (·.inMem) = some [(5, 0xFF)] := by decide
/-- The example of 40_host_transactions.md R109. -/
theorem test_inWriteH :
    (nextOf (exec (.inWriteH 0x232800 0xC880) State.reset)).map (·.inMem) =
      some [(0x232800, 0x80), (0x232801, 0xC8)] := by decide
/-- H17. -/
theorem test_inWriteH_misaligned :
    resp (exec (.inWriteH 1 0) State.reset) = some (.busError ⟨.misaligned, 0x0D, 1⟩) := by decide
/-- H14. -/
theorem test_inWriteW :
    (nextOf (exec (.inWriteW 0 0x44332211) State.reset)).map (·.inMem) =
      some [(0, 0x11), (1, 0x22), (2, 0x33), (3, 0x44)] := by decide
/-- H23. -/
theorem test_inWriteB_busy :
    resp (exec (.inWriteB 0 7) (busy6 .average)) = some (.busError ⟨.busy, 0x0C, 0⟩) := by decide
/-- The reads of program P1 on its OUT bytes. -/
theorem test_outRead :
    let s := { t6 with outMem := cells [51, 255, 1, 5, 104, 201] }
    resp (exec (.outReadW 0) s) = some (.okay 0x0501FF33) ∧ resp (exec (.outReadH 4) s) = some (.okay 0x0000C968) ∧
    resp (exec (.outReadB 1) s) = some (.okay 255) := by decide
/-- H21. -/
theorem test_outReadB_unwritten : exec (.outReadB 0) State.reset = .fault (.unwrittenRead .out 0) := by rfl
/-- H26. -/
theorem test_outReadW_busy :
    resp (exec (.outReadW 0) (busy6 .skip)) = some (.busError ⟨.busy, 0x12, 0⟩) := by decide
/-- 40_host_transactions.md R113: 6 OUT cells, so a half read at 6 is out of range and at 5 too. -/
theorem test_outReadH_end :
    resp (exec (.outReadH 5) t6) = some (.busError ⟨.outOfRange, 0x11, 5⟩) ∧
    resp (exec (.outReadH 3) t6) = some (.busError ⟨.misaligned, 0x11, 3⟩) := by decide

/-! ### Commands (95_test_vectors.md 2.2) -/

/-- STATUS after INPUT_SIZE in Average mode, 0x00000126. -/
def afterInputSize : State := { t6 with status := failedStatus .inputSize .none .average, irqEn := true }

/-- K1: a NOP leaves STATUS = 0x00000102. -/
theorem test_nop :
    (nextOf (exec .nop { t6 with status := succeededStatus .average })).map (·.status.word) = some 0x00000102 := by decide
/-- K2, K9. -/
theorem test_startAvg :
    (nextOf (exec .startAvg afterInputSize)).map (fun t => (t.status.word, t.outLen, t.irq)) = some (0x00000101, 0, false) := by
  decide
/-- K3. -/
theorem test_startSkip :
    (nextOf (exec .startSkip { t6 with outLen := 6 })).map (fun t => (t.status.word, t.outLen)) = some (0x00000201, 0) := by
  decide
/-- K4, E6. -/
theorem test_clearStatus :
    afterInputSize.status.word = 0x00000126 ∧ afterInputSize.irq = true ∧
    (nextOf (exec .clearStatus afterInputSize)).map (fun t => (t.status.word, t.irq)) = some (0x00000000, false) := by decide
/-- K5 to K8. -/
theorem test_illegal_commands :
    ([0x4, 0xF, 0x11, 0x80000001] : List Word).map (fun w => (nextOf (exec (.regWrite 0x04 w) t6)).map (·.status.word)) =
      [some 0x16, some 0x16, some 0x16, some 0x16] := by decide
/-- K10. -/
theorem test_command_busy : resp (exec .clearStatus (busy6 .skip)) = some (.busError ⟨.busy, 0x06, 0x04⟩) := by decide

/-! ### The engine step -/

/-- What the engine leaves: STATUS, OUT_LEN and OUT. -/
def engineResult (s : State) : Option (Word × Word × List Byte) :=
  (nextOf (engineStep s)).map fun t => (t.status.word, t.outLen, t.outMem.map Prod.snd)

/-- A1. -/
theorem test_engine_average : engineResult (busy6 .average) = some (0x00000102, 6, [51, 255, 1, 5, 104, 201]) := by
  decide +kernel
/-- K-S1. -/
theorem test_engine_skip : engineResult (busy6 .skip) = some (0x00000202, 6, [10, 255, 0, 1, 100, 200]) := by
  decide +kernel
/-- A2 and K-S2: the lanes are independent, and ties round up. -/
theorem test_engine_average_ties : engineResult (busy4 .average) = some (0x00000102, 6, [1, 1, 2, 3, 1, 255]) := by
  decide +kernel
theorem test_engine_skip_pairs : engineResult (busy4 .skip) = some (0x00000202, 6, [0, 1, 2, 3, 0, 255]) := by
  decide +kernel
/-- S7: an odd width. -/
theorem test_engine_format : engineResult (busy (inst 7 6 3 3 (by decide)) .average 63 []) = some (0x00003136, 0, []) := by
  decide +kernel
/-- S8. -/
theorem test_engine_luma : engineResult (busy (inst 10 6 3 3 (by decide)) .average 90 []) = some (0x00001136, 0, []) := by
  decide +kernel
/-- S9, E3. -/
theorem test_engine_chroma :
    engineResult (busy (inst 6 4 2 2 (by decide)) .average 36 []) = some (0x00002136, 0, []) ∧
    engineResult (busy (inst 6 4 2 2 (by decide)) .skip 36 []) = some (0x00002236, 0, []) := by decide +kernel
/-- S11: the size before the shape. -/
theorem test_engine_size_first : engineResult (busy (inst 10 6 3 3 (by decide)) .average 0 []) = some (0x00000126, 0, []) := by
  decide +kernel
/-- 43_average_reducer.md R165: a block's cells are read row by row, so the missing cell 6 comes before 7. -/
theorem test_engine_unwritten :
    engineStep (busy t6 .average 54 (f6.take 6)) = .fault (.unwrittenRead .inp 6) := by rfl
/-- 95_test_vectors.md 2.4: the divides of N = 9, the ties of N = 4 and N = 8, and the largest block. -/
theorem test_roundDivide :
    ([0, 4, 5, 9, 13, 14, 455, 940, 1805, 2290, 2291, 2294, 2295] : List Acc).map (roundDivide 9) =
      [0, 0, 1, 1, 1, 2, 51, 104, 201, 254, 255, 255, 255] ∧
    ([2, 5, 6, 1018] : List Acc).map (roundDivide 4) = [1, 1, 2, 255] ∧ roundDivide 8 44 = 6 ∧
    roundDivide 256 65280 = 255 := by decide +kernel
/-- S1 to S5 and P-1 to P-4, in the default instance. -/
theorem test_addresses :
    let g := Config.default.geom
    (lumaAddr g 0 1919, lumaAddr g 1 0, lumaAddr g 1199 1919) = (1919, 1920, 2303999) ∧
    (chromaAddr g 0 0 0, chromaAddr g 1 0 959, chromaAddr g 0 1 0, chromaAddr g 1 599 959) =
      (2304000, 2305919, 2305920, 3455999) := by decide +kernel
/-- Z1. -/
theorem test_reset :
    (nextOf (step { busy6 .average with inputs := [.reset], irqEn := true })).map
      (fun t => (t.status.word, t.irqEn, t.inLen, t.inMem ++ t.outMem)) = some (0, false, 0, []) := by decide +kernel
/-- Program P3's first lines: INPUT_SIZE raises irq, and IN_SIZE reads 54. -/
theorem test_script :
    (ScriptLine.fill 0 3 255).requests = [⟨0x0C, 0, 255⟩, ⟨0x0C, 1, 255⟩, ⟨0x0C, 2, 255⟩] ∧
    readReg t6 .inSize = 0x36 := by decide

/-! ### Witnesses: for every statement with hypotheses, a state and operands that meet them together

The states are the small instances above; an address, an offset or a word is taken at the end of its
range. -/

/-- A state with these inputs pending. -/
def pending (s : State) (l : List Input) : State := { s with inputs := l }

theorem witness_ElaborationAcceptsExactlyLegalGeometries :
    legalGeometry ⟨32, 32, 16, 16⟩ ∧ legalGeometry ⟨65535, 43690, 1, 256⟩ ∧ ¬ legalGeometry ⟨6, 6, 257, 1⟩ ∧
    ¬ legalGeometry ⟨1, 6, 1, 1⟩ ∧ ¬ legalGeometry ⟨65535, 65535, 1, 1⟩ := by
  simp only [legalGeometry]; decide

theorem witness_ResetFromAnyState :
    (pending (busy6 .average) [.reset, .engine]).inputs = .reset :: [.engine] ∧
    (busy6 .average).status.busy = true := by decide

theorem inv_t6 : State.Inv t6 := ⟨by decide, by decide, by decide, by decide, by decide, by decide⟩

theorem inv_busy6 : State.Inv (busy6 .average) :=
  ⟨by decide, by decide +kernel, by decide, by decide +kernel, by decide, by decide⟩

theorem witness_StepKeepsInvariant :
    State.Inv (busy6 .average) ∧ (busy6 .average).status.busy = true ∧ ∃ t, step (busy6 .average) = .next t :=
  ⟨inv_busy6, rfl, next_of_isSome (by decide +kernel)⟩

theorem witness_GeometryAndConstantsNeverChange : ∃ t, step (pending t6 [.reset]) = .next t := ⟨_, rfl⟩

theorem witness_DecodeAndEncodeAgree :
    (Instr.regWrite 0x04 0x4).wellFormed = true ∧ (Instr.regWrite 0x08 0x3).wellFormed = true ∧
    decode ⟨0x0E, 0xFFFFFFFF, 0xFFFFFFFF⟩ = .ok (.inWriteW 0xFFFFFFFF 0xFFFFFFFF) ∧
    (0x0E : BitVec 5).getLsbD 2 = true ∧ decode ⟨0x12, 0xFFFFFFFF, 0xFFFFFFFF⟩ = .ok (.outReadW 0xFFFFFFFF) ∧
    (0x12 : BitVec 5).getLsbD 2 = false := ⟨rfl, rfl, rfl, by decide, rfl, by decide⟩

theorem witness_KindTableDecodes :
    (0x08 : Word) ≠ 0x04 ∧ (⟨0x1F, 0, 0⟩ : Hrd).kind ∉ legalKinds ∧ (⟨0x13, 0, 0⟩ : Hrd).kind ∉ legalKinds := by decide

theorem witness_CtrlWordTableDecodes :
    (4 : Word) ≠ 0 ∧ (4 : Word) ≠ 1 ∧ (4 : Word) ≠ 2 ∧ (4 : Word) ≠ 3 := by decide

theorem witness_ScriptLinesExpand : 1 ≤ 1 ∧ 1 < ([0x11, 0x22] : List Word).length ∧ 53 < 54 := by decide

theorem witness_StepRunsDecodedInstruction :
    (pending t6 [.request ⟨0x12, 2, 0⟩, .engine]).inputs = .request ⟨0x12, 2, 0⟩ :: [.engine] ∧
    decode ⟨0x12, 2, 0⟩ = .ok (.outReadW 2) ∧ (Instr.outReadW 2).wellFormed = true := ⟨rfl, rfl, rfl⟩

theorem witness_EngineTurns :
    ((pending (busy6 .skip) [.engine, .reset]).inputs = .engine :: [.reset] ∧ (busy6 .skip).status.busy = true) ∧
    ((pending t6 [.engine]).inputs = .engine :: [] ∧ t6.status.busy = false) ∧
    ((busy6 .skip).inputs = [] ∧ t6.inputs = []) := by decide

theorem witness_StepStopsOnlyOnUnwrittenCells :
    step (pending t6 [.request ⟨0x08, 53, 0⟩]) = .fault (.unwrittenRead .inp 53) ∧
    step (pending t6 [.request ⟨0x10, 5, 0⟩]) = .fault (.unwrittenRead .out 5) := ⟨rfl, rfl⟩

/-- One request for each reason, at the edge of its range in T6, and one that gets none. -/
theorem witness_BusErrorIsFirstFailingCheck :
    (pending t6 [.request ⟨0x02, 0x28, 0⟩]).inputs = .request ⟨0x02, 0x28, 0⟩ :: [] ∧
    getsReason t6 ⟨0x1F, 0, 0⟩ .illegalKind ∧ getsReason t6 ⟨0x0A, 51, 0⟩ .outOfRange ∧
    getsReason t6 ⟨0x02, 0x29, 0⟩ .outOfRange ∧ getsReason t6 ⟨0x0A, 50, 0⟩ .misaligned ∧
    getsReason t6 ⟨0x06, 0x28, 0⟩ .readOnly ∧ getsReason (busy6 .skip) ⟨0x06, 0x10, 0⟩ .busy ∧
    getsReason (busy6 .skip) ⟨0x0C, 53, 0⟩ .busy ∧ ∀ r, ¬ getsReason (busy6 .skip) ⟨0x02, 0x28, 0⟩ r := by
  refine ⟨rfl, ?_, ?_, ?_, ?_, ?_, ?_, ?_, fun r => ?_⟩
  case refine_8 => cases r <;> simp only [getsReason, interlockedRequest] <;> decide
  all_goals simp only [getsReason, interlockedRequest]
  all_goals decide

/-- A legal kind at the edge of OutOfRange, and an illegal one: each gets its reason. -/
theorem witness_BusErrorReasonsExclusive :
    Kind.inReadW.bits = (⟨0x0A, 51, 0⟩ : Hrd).kind ∧ getsReason t6 ⟨0x0A, 51, 0⟩ .outOfRange ∧
    checkRequest t6 .inReadW 51 = some .outOfRange ∧ getsReason t6 ⟨0x1F, 0, 0⟩ .illegalKind ∧
    serveRequest ⟨0x1F, 0, 0⟩ t6 = .next (rejected t6 .illegalKind 0x1F 0) := by
  refine ⟨rfl, ?_, rfl, ?_, rfl⟩
  all_goals simp only [getsReason]
  all_goals decide

theorem witness_IllegalKindsRejected :
    (0x00 : BitVec 5) ∈ illegalKinds ∧ (0x0F : BitVec 5) ∈ illegalKinds ∧ (0x1F : BitVec 5) ∈ illegalKinds := by decide

theorem witness_BusyInterlock :
    (busy6 .average).status.busy = true ∧
    (∀ w : Width, ∃ a : Word, a.toNat + w.bytes ≤ inFrameBytes (busy6 .average).cfg.geom ∧ a.toNat % w.bytes = 0 ∧
      ∀ k, k < w.bytes → (Memory.read (busy6 .average).inMem (a.toNat + k)).isSome = true) ∧
    (∀ w : Width, ∃ a : Word, a.toNat + w.bytes ≤ outFrameBytes (busy6 .average).cfg.geom ∧ a.toNat % w.bytes = 0) ∧
    ((0x28 : Word).toNat % 4 = 0 ∧ (0x28 : Word).toNat ≤ 0x28 ∧ (0x28 : Word) ∈ roOffsets) ∧
    ((51 : Word).toNat + Width.word.bytes > inFrameBytes (busy6 .average).cfg.geom ∧
      (3 : Word).toNat + Width.word.bytes > outFrameBytes (busy6 .average).cfg.geom) ∧
    ((50 : Word).toNat + Width.word.bytes ≤ inFrameBytes (busy6 .average).cfg.geom ∧ (50 : Word).toNat % Width.word.bytes ≠ 0 ∧
      (2 : Word).toNat + Width.word.bytes ≤ outFrameBytes (busy6 .average).cfg.geom ∧ (2 : Word).toNat % Width.word.bytes ≠ 0) := by
  refine ⟨rfl, fun w => ?_, fun w => ?_, by decide, by decide, by decide⟩
  · cases w
    · exact ⟨53, by decide, by decide, by decide +kernel⟩
    · exact ⟨52, by decide, by decide, by decide +kernel⟩
    · exact ⟨48, by decide, by decide, by decide +kernel⟩
  · cases w
    · exact ⟨5, by decide, by decide⟩
    · exact ⟨4, by decide, by decide⟩
    · exact ⟨0, by decide, by decide⟩

theorem witness_RegReadReturnsRegister :
    (0x29 : Word).toNat > 0x28 ∧ (0x2C : Word).toNat > 0x28 ∧ (0x27 : Word).toNat ≤ 0x28 ∧ (0x27 : Word).toNat % 4 ≠ 0 := by
  decide

theorem witness_IrqEnWrite : ∃ t, exec (.regWrite 0x0C 0xFFFFFFFF) (busy6 .skip) = .next t := ⟨_, rfl⟩

theorem witness_InLenWrite :
    t6.status.busy = false ∧ (busy t6 .average 55 []).status.busy = true ∧
    (busy t6 .average 55 []).inLen.toNat > inCap (busy t6 .average 55 []).cfg.geom := by decide

theorem witness_ReadOnlyRegisterWrite : (0x00 : Word) ∈ roOffsets ∧ (0x28 : Word) ∈ roOffsets := by decide

theorem witness_CtrlWriteRunsCommand :
    t6.status.busy = false ∧ (busy6 .skip).status.busy = true ∧ (4 : Word) ≠ 0 ∧ (4 : Word) ≠ 1 ∧ (4 : Word) ≠ 2 ∧
    (4 : Word) ≠ 3 := by decide

theorem witness_NopCompletes : afterInputSize.status.busy = false ∧ (busy6 .skip).status.busy = true := by decide

theorem witness_StartAvgCompletes :
    afterInputSize.status.busy = false ∧ afterInputSize.inLen = 0 ∧
    validate afterInputSize.cfg.geom afterInputSize.inLen = some (.inputSize, .none) := by decide

theorem witness_StartSkipCompletes :
    (inst 6 4 2 2 (by decide)).status.busy = false ∧
    validate (inst 6 4 2 2 (by decide)).cfg.geom 36 = some (.shapeDivisibility, .chroma) := by decide

theorem witness_ClearStatusCompletes : afterInputSize.status.busy = false := by decide

theorem witness_IllegalCommandReportsUsage :
    t6.status.busy = false ∧ (4 : Word) ≠ 0 ∧ (4 : Word) ≠ 1 ∧ (4 : Word) ≠ 2 ∧ (4 : Word) ≠ 3 := by decide

/-- The last half word of IN: both bytes written; its second byte unwritten; a half past the end; an odd address. -/
theorem witness_InReadReturnsBytes :
    ((52 : Word).toNat + Width.half.bytes ≤ inCap t6.cfg.geom ∧ (52 : Word).toNat % Width.half.bytes = 0) ∧
    (∀ k, k < Width.half.bytes → Memory.read (busy6 .skip).inMem ((52 : Word).toNat + k) = some (f6.getD (52 + k) 0)) ∧
    (1 < Width.half.bytes ∧ Memory.read (cells (f6.take 53)) ((52 : Word).toNat + 1) = none ∧
      ∀ j, j < 1 → (Memory.read (cells (f6.take 53)) ((52 : Word).toNat + j)).isSome = true) ∧
    (53 : Word).toNat + Width.half.bytes > inCap t6.cfg.geom ∧
    ((51 : Word).toNat + Width.half.bytes ≤ inCap t6.cfg.geom ∧ (51 : Word).toNat % Width.half.bytes ≠ 0) := by
  decide +kernel

theorem witness_InWriteStoresBytes :
    ((52 : Word).toNat + Width.half.bytes ≤ inCap t6.cfg.geom ∧ (52 : Word).toNat % Width.half.bytes = 0 ∧
      t6.status.busy = false ∧ (busy6 .skip).status.busy = true) ∧
    (53 : Word).toNat + Width.half.bytes > inCap t6.cfg.geom ∧
    ((51 : Word).toNat + Width.half.bytes ≤ inCap t6.cfg.geom ∧ (51 : Word).toNat % Width.half.bytes ≠ 0) := by decide

theorem witness_WriteThenReadReturnsValue :
    (48 : Word).toNat + Width.word.bytes ≤ inCap t6.cfg.geom ∧ (48 : Word).toNat % Width.word.bytes = 0 ∧
    t6.status.busy = false ∧ ∃ t, exec (inWrite .word 48 0xFFFFFFFF) t6 = .next t :=
  ⟨by decide, by decide, rfl, ⟨_, rfl⟩⟩

/-- OUT as A1 leaves it. -/
def packed6 : State := { t6 with outMem := cells [51, 255, 1, 5, 104, 201] }

theorem witness_OutReadReturnsBytes :
    ((4 : Word).toNat + Width.half.bytes ≤ outCap t6.cfg.geom ∧ (4 : Word).toNat % Width.half.bytes = 0 ∧
      packed6.status.busy = false ∧ (busy6 .skip).status.busy = true) ∧
    (∀ k, k < Width.half.bytes → Memory.read packed6.outMem ((4 : Word).toNat + k) = some (if k = 0 then 104 else 201)) ∧
    (1 < Width.half.bytes ∧ Memory.read (cells [51, 255, 1, 5, 104]) ((4 : Word).toNat + 1) = none ∧
      ∀ j, j < 1 → (Memory.read (cells [51, 255, 1, 5, 104]) ((4 : Word).toNat + j)).isSome = true) ∧
    (5 : Word).toNat + Width.half.bytes > outCap t6.cfg.geom ∧
    ((3 : Word).toNat + Width.half.bytes ≤ outCap t6.cfg.geom ∧ (3 : Word).toNat % Width.half.bytes ≠ 0) := by decide

/-- A store, a read, a START and an illegal command, each answering a next state. -/
theorem witness_InstructionFrame :
    (∃ t, exec (.inWriteH 52 0xCD70) t6 = .next t) ∧ (∃ t, exec (.outReadW 0) packed6 = .next t) ∧
    (∃ t, exec .startSkip t6 = .next t) ∧ (∃ t, exec .nop t6 = .next t) ∧ (∃ t, exec .clearStatus t6 = .next t) ∧
    (∃ t, exec (.regWrite 0x04 0x4) t6 = .next t) ∧ (0x4 : Word).toNat ≠ 1 ∧ (0x4 : Word).toNat ≠ 2 :=
  ⟨⟨_, rfl⟩, ⟨_, rfl⟩, ⟨_, rfl⟩, ⟨_, rfl⟩, ⟨_, rfl⟩, ⟨_, rfl⟩, by decide, by decide⟩

theorem witness_ReadsHaveNoSideEffect :
    isRead (.outReadW 0) = true ∧ isRead (.regRead 0x08) = true ∧
    (∃ t, exec (.outReadW 0) packed6 = .next t ∧ ∃ u, exec (.regRead 0x08) t = .next u) ∧
    (∃ t, exec (inWrite .byte 53 7) t6 = .next t) ∧ (∃ t, exec (.regWrite 0x10 7) t6 = .next t) ∧
    ∃ t, exec (.regWrite 0x0C 1) t6 = .next t :=
  ⟨rfl, rfl, ⟨_, rfl, _, rfl⟩, ⟨_, rfl⟩, ⟨_, rfl⟩, ⟨_, rfl⟩⟩

theorem witness_OnlyTheseStepsChangeState :
    ((∃ t, step (pending t6 [.request ⟨0x0C, 53, 7⟩]) = .next t ∧ t.inMem ≠ t6.inMem) ∧
      ∀ rest, (pending t6 [.request ⟨0x0C, 53, 7⟩]).inputs ≠ .reset :: rest) ∧
    (∃ t, step (pending t6 [.request ⟨0x06, 0x10, 7⟩]) = .next t ∧ t.inLen ≠ t6.inLen) ∧
    (∃ t, step (pending t6 [.request ⟨0x06, 0x0C, 1⟩]) = .next t ∧ t.irqEn ≠ t6.irqEn) ∧
    (∃ t, step (busy6 .skip) = .next t) ∧ (nextOf (step (busy6 .skip))).map (·.outMem) ≠ some (busy6 .skip).outMem :=
  ⟨⟨⟨_, rfl, by decide⟩, fun rest h => by cases h⟩, ⟨_, rfl, by decide⟩, ⟨_, rfl, by decide⟩,
    next_of_isSome (by decide +kernel), by decide +kernel⟩

theorem witness_BusyWindowFreezesOperation :
    (busy6 .skip).status.busy = true ∧
    (∃ t, step (pending (busy6 .skip) [.request ⟨0x0C, 0, 7⟩]) = .next t ∧ t.status.busy = true) ∧
    ∃ t, step (busy6 .skip) = .next t := ⟨rfl, ⟨_, rfl, rfl⟩, next_of_isSome (by decide +kernel)⟩

theorem witness_IrqLevel :
    (let s := { busy t6 .average 0 [] with irqEn := true };
      s.irq = false ∧ ∃ t, step s = .next t ∧ t.irq = true) ∧
    (let s := pending { t6 with irqEn := true } [.request ⟨0x06, 0x04, 0x4⟩];
      s.irq = false ∧ ∃ t, step s = .next t ∧ t.irq = true) ∧
    (let s := pending { packed6 with status := succeededStatus .skip } [.request ⟨0x06, 0x0C, 1⟩];
      s.irq = false ∧ ∃ t, step s = .next t ∧ t.irq = true) ∧
    ∃ t, step (pending t6 [.request ⟨0x02, 0x2C, 0⟩]) = .next t ∧
      t.response = some (.busError ⟨.outOfRange, 0x02, 0x2C⟩) :=
  ⟨⟨rfl, _, rfl, rfl⟩, ⟨rfl, _, rfl, rfl⟩, ⟨rfl, _, rfl, rfl⟩, _, rfl, rfl⟩

theorem witness_OpErrorLeftOnlyByHostAction :
    afterInputSize.status.Consistent ∧ afterInputSize.status.error = true ∧
    (∃ t, step (pending afterInputSize [.request ⟨0x06, 0x04, 0x3⟩]) = .next t ∧ t.status.error = false) ∧
    (∃ t, step (pending afterInputSize [.request ⟨0x06, 0x04, 0x1⟩]) = .next t ∧ t.status.error = false) ∧
    (∃ t, step (pending afterInputSize [.reset]) = .next t ∧ t.status.error = false) ∧ (0x4 : Word).toNat > 3 :=
  ⟨by decide, rfl, ⟨_, rfl, rfl⟩, ⟨_, rfl, rfl⟩, ⟨_, rfl, rfl⟩, by decide⟩

/-- One state for each failing check, and one that passes all. -/
theorem witness_ValidationFailureRecorded :
    ((busy t6 .average 53 []).status.busy = true ∧ ¬ sizeHolds (busy t6 .average 53 []) ∧ ¬ sizeHolds (busy t6 .average 55 [])) ∧
    (sizeHolds (busy (inst 7 6 3 3 (by decide)) .average 63 []) ∧ ¬ formatHolds ⟨7, 6, 3, 3⟩) ∧
    (sizeHolds (busy (inst 10 6 3 3 (by decide)) .average 90 []) ∧ formatHolds ⟨10, 6, 3, 3⟩ ∧ ¬ lumaHolds ⟨10, 6, 3, 3⟩) ∧
    (sizeHolds (busy (inst 6 4 2 2 (by decide)) .average 36 []) ∧ formatHolds ⟨6, 4, 2, 2⟩ ∧ lumaHolds ⟨6, 4, 2, 2⟩ ∧
      ¬ chromaHolds ⟨6, 4, 2, 2⟩) ∧
    validFrame (busy6 .average) := by
  simp only [validFrame, sizeHolds, formatHolds, lumaHolds, chromaHolds]; decide

theorem witness_OpErrorWritesOnlyStatus :
    ErrCode.internalSize ≠ .none ∧ (⟨[], 5⟩ : Packed).count ≠ outFrameBytes t6.cfg.geom := by decide

theorem valid6 (m : Mode) : validFrame (busy6 m) := by
  simp only [validFrame, sizeHolds, formatHolds, lumaHolds, chromaHolds]; cases m <;> decide

theorem valid4 (m : Mode) : validFrame (busy4 m) := by
  simp only [validFrame, sizeHolds, formatHolds, lumaHolds, chromaHolds]; cases m <;> decide

theorem witness_ValidGeometryFacts :
    validFrame (busy6 .average) ∧ 35 < inYBytes (busy6 .average).cfg.geom ∧
    (inYBytes (busy6 .average).cfg.geom ≤ 36 ∧ 53 < inFrameBytes (busy6 .average).cfg.geom) := ⟨valid6 _, by decide, by decide⟩

/-- T6 passes both checks, 6×4 with factors 2 the luma check alone (42_plane_splitter.md R146), 10×6 with factors 3 not even that (R145). -/
theorem witness_ChromaCheckImpliesLumaCheck :
    (formatOk t6.cfg.geom = true ∧ chromaDivOk t6.cfg.geom = true ∧ inputSizeOk t6.cfg.geom 54 = true) ∧
    (formatOk (inst 6 4 2 2 (by decide)).cfg.geom = true ∧ lumaDivOk (inst 6 4 2 2 (by decide)).cfg.geom = true ∧ chromaDivOk (inst 6 4 2 2 (by decide)).cfg.geom = false ∧ inputSizeOk (inst 6 4 2 2 (by decide)).cfg.geom 36 = true) ∧
    (formatOk (inst 10 6 3 3 (by decide)).cfg.geom = true ∧ lumaDivOk (inst 10 6 3 3 (by decide)).cfg.geom = false ∧ inputSizeOk (inst 10 6 3 3 (by decide)).cfg.geom 90 = true) := by decide

/-- The last luma block of T6, whose samples are the written cells of F6. -/
theorem witness_BlockAverageIsExact :
    ∀ i j, i < t6.cfg.geom.fy → j < t6.cfg.geom.fx →
      lumaView t6.cfg.geom (cells f6) (1 * t6.cfg.geom.fy + i) (1 * t6.cfg.geom.fx + j) =
        .ok ((fun y x => f6.getD (y * 6 + x) 0) (1 * t6.cfg.geom.fy + i) (1 * t6.cfg.geom.fx + j)) := by
  intro i j hi hj
  have hi : i < 3 := hi
  have hj : j < 3 := hj
  interval_cases i <;> interval_cases j <;> rfl

theorem witness_RoundingDivideIsNearest :
    (1 ≤ 1 ∧ 1 ≤ 256 ∧ (255 : Acc).toNat ≤ 255 * 1) ∧ (1 ≤ 256 ∧ 256 ≤ 256 ∧ (65280 : Acc).toNat ≤ 255 * 256) := by decide

/-- A plane that holds 0 in even columns and 255 in odd ones; and one that holds 200 everywhere. -/
theorem witness_BlockAverageWithinRange :
    (∀ i j, i < t6.cfg.geom.fy → j < t6.cfg.geom.fx →
      (fun _ x => .ok (if x % 2 = 0 then 0 else 255) : Plane) (0 * t6.cfg.geom.fy + i) (0 * t6.cfg.geom.fx + j) =
        .ok ((fun _ x => if x % 2 = 0 then (0 : Byte) else 255) (0 * t6.cfg.geom.fy + i) (0 * t6.cfg.geom.fx + j)) ∧
      (0 : Byte).toNat ≤ ((fun _ x => if x % 2 = 0 then (0 : Byte) else 255 : Nat → Nat → Byte)
        (0 * t6.cfg.geom.fy + i) (0 * t6.cfg.geom.fx + j)).toNat ∧
      ((fun _ x => if x % 2 = 0 then (0 : Byte) else 255 : Nat → Nat → Byte)
        (0 * t6.cfg.geom.fy + i) (0 * t6.cfg.geom.fx + j)).toNat ≤ (255 : Byte).toNat) ∧
    (∀ i j, i < t6.cfg.geom.fy → j < t6.cfg.geom.fx →
      (fun _ _ => .ok 200 : Plane) (0 * t6.cfg.geom.fy + i) (0 * t6.cfg.geom.fx + j) = .ok 200 ∧
      (200 : Byte).toNat ≤ (200 : Byte).toNat) := by
  refine ⟨fun i j _ _ => ⟨rfl, Nat.zero_le _, ?_⟩, fun _ _ _ _ => ⟨rfl, le_refl _⟩⟩
  dsimp only
  split <;> decide

/-- Both modes, with the whole frame written and with a frame that lacks its last cell. -/
theorem witness_EngineFaultsAtFirstUnwrittenCell :
    ((busy6 .average).status.busy = true ∧ validFrame (busy6 .average) ∧ isReducing (busy6 .average).status.mode ∧
      ∃ t, engineStep (busy6 .average) = .next t) ∧
    ((busy6 .skip).status.busy = true ∧ validFrame (busy6 .skip) ∧ isReducing (busy6 .skip).status.mode ∧
      ∃ t, engineStep (busy6 .skip) = .next t) ∧
    (averageReadOrder t6.cfg.geom).find? (fun a => (Memory.read (cells (f6.take 53)) a).isNone) = some 53 ∧
    (skipReadOrder t6.cfg.geom).find? (fun a => (Memory.read (cells (f6.take 53)) a).isNone) = none :=
  ⟨⟨rfl, valid6 _, .inl rfl, next_of_isSome (by decide +kernel)⟩,
    ⟨rfl, valid6 _, .inr rfl, next_of_isSome (by decide +kernel)⟩, by decide +kernel, by decide +kernel⟩

theorem witness_AverageOperationOutput :
    (busy4 .average).status.busy = true ∧ (busy4 .average).status.mode = .average ∧ validFrame (busy4 .average) ∧
    (∀ a, a < inFrameBytes (busy4 .average).cfg.geom → Memory.read (busy4 .average).inMem a = some (f4.getD a 0)) ∧
    (1 < outH t4.cfg.geom ∧ 1 < outW t4.cfg.geom ∧ 0 < outChH t4.cfg.geom ∧ 0 < outChW t4.cfg.geom ∧
      outFrameBytes t4.cfg.geom ≤ 6) := ⟨rfl, rfl, valid4 _, by decide +kernel, by decide⟩

/-- The selected cells alone are written. -/
def sparse4 : State := { busy4 .skip with inMem := [(0, 7), (2, 8), (8, 9), (10, 10), (16, 11), (17, 12)] }

theorem witness_SkipOperationOutput :
    sparse4.status.busy = true ∧ sparse4.status.mode = .skip ∧ validFrame sparse4 ∧
    (∀ a ∈ skipReadOrder sparse4.cfg.geom, Memory.read sparse4.inMem a = some ((Memory.read sparse4.inMem a).getD 0)) :=
  ⟨rfl, rfl, valid4 .skip, by decide +kernel⟩

theorem witness_PackerPlacesFrame :
    let f : Reduced := ⟨[[51, 255], [1, 5]], [[(104, 201)]]⟩
    f.luma = (List.range (outH t6.cfg.geom)).map (fun r => (List.range (outW t6.cfg.geom)).map
      ((fun r c => ([51, 255, 1, 5] : List Byte).getD (r * 2 + c) 0) r)) ∧
    f.chroma = (List.range (outChH t6.cfg.geom)).map (fun rc => (List.range (outChW t6.cfg.geom)).map
      ((fun _ _ => ((104 : Byte), (201 : Byte))) rc)) := by decide

theorem witness_SuccessFillsOut :
    (busy6 .average).status.busy = true ∧ (∃ t, engineStep (busy6 .average) = .next t) ∧
    (nextOf (engineStep (busy6 .average))).map (·.status.error) = some false ∧
    5 < outFrameBytes (busy6 .average).cfg.geom ∧ outFrameBytes (busy6 .average).cfg.geom ≤ 6 :=
  ⟨rfl, next_of_isSome (by decide +kernel), by decide +kernel, by decide, by decide⟩

theorem witness_CompletionReportsValidation :
    ((busy6 .average).status.busy = true ∧ validFrame (busy6 .average) ∧ ∃ t, engineStep (busy6 .average) = .next t) ∧
    ((busy t6 .skip 0 []).status.busy = true ∧ ¬ validFrame (busy t6 .skip 0 []) ∧
      ∃ t, engineStep (busy t6 .skip 0 []) = .next t) := by
  refine ⟨⟨rfl, valid6 _, next_of_isSome (by decide +kernel)⟩, rfl, ?_, next_of_isSome (by decide +kernel)⟩
  simp only [validFrame, sizeHolds, formatHolds, lumaHolds, chromaHolds]
  decide

/-- Two states that differ in OUT, OUT_LEN and IRQ_EN. -/
theorem witness_OperationDependsOnlyOnInputs :
    let s₁ := busy6 .average
    let s₂ := { busy6 .average with outMem := [(0, 9)], outLen := 6, irqEn := true }
    s₁.status.busy = true ∧ s₂.status.busy = true ∧ s₁.cfg = s₂.cfg ∧ s₁.status.mode = s₂.status.mode ∧
    s₁.inLen = s₂.inLen ∧ s₁.inMem = s₂.inMem ∧ s₁ ≠ s₂ ∧ (∃ t, engineStep s₁ = .next t) ∧
    (nextOf (engineStep s₁)).map (·.status.error) = some false :=
  ⟨rfl, rfl, rfl, rfl, rfl, rfl, by decide +kernel, next_of_isSome (by decide +kernel), by decide +kernel⟩

/-- F6 with another V byte at the end. -/
def otherV : State := { busy6 .average with inMem := cells (f6.set 53 0) }

/-- F6 with another first luma byte and another first U byte. -/
def otherLumaU : State := { busy6 .average with inMem := cells ((f6.set 0 7).set 36 0) }

/-- The luma plane and the U channel agree with otherV, the V channel with otherLumaU. -/
theorem witness_ChromaLanesIndependent :
    (busy6 .average).status.busy = true ∧ validFrame (busy6 .average) ∧ isReducing (busy6 .average).status.mode ∧
    (∃ t, engineStep (busy6 .average) = .next t) ∧
    (otherV = { busy6 .average with inMem := otherV.inMem } ∧ otherV.inMem ≠ (busy6 .average).inMem ∧
      (∃ t, engineStep otherV = .next t) ∧
      (∀ a, a < inYBytes t6.cfg.geom → Memory.read (busy6 .average).inMem a = Memory.read otherV.inMem a) ∧
      (∀ rc, rc < chH t6.cfg.geom → ∀ cc, cc < chW t6.cfg.geom →
        Memory.read (busy6 .average).inMem (chromaAddr t6.cfg.geom 0 rc cc) =
          Memory.read otherV.inMem (chromaAddr t6.cfg.geom 0 rc cc))) ∧
    (otherLumaU = { busy6 .average with inMem := otherLumaU.inMem } ∧
      otherLumaU.inMem ≠ (busy6 .average).inMem ∧ (∃ t, engineStep otherLumaU = .next t) ∧
      (∀ rc, rc < chH t6.cfg.geom → ∀ cc, cc < chW t6.cfg.geom →
        Memory.read (busy6 .average).inMem (chromaAddr t6.cfg.geom 1 rc cc) =
          Memory.read otherLumaU.inMem (chromaAddr t6.cfg.geom 1 rc cc))) :=
  ⟨rfl, valid6 _, .inl rfl, next_of_isSome (by decide +kernel),
    ⟨rfl, by decide +kernel, next_of_isSome (by decide +kernel), by decide +kernel, by decide +kernel⟩,
    ⟨rfl, by decide +kernel, next_of_isSome (by decide +kernel), by decide +kernel⟩⟩

/-- One frame with the selected cells alone, one with others too; and an operation that faults. -/
theorem witness_SkipReadsOnlySelectedCells :
    sparse4.status.busy = true ∧ sparse4.status.mode = .skip ∧
    (∀ a ∈ skipReadOrder sparse4.cfg.geom,
      Memory.read (Memory.write sparse4.inMem 1 99) a = Memory.read sparse4.inMem a) ∧
    (∃ t, engineStep sparse4 = .next t) ∧
    engineStep { sparse4 with inMem := [] } = .fault (.unwrittenRead .inp 0) :=
  ⟨rfl, rfl, by decide +kernel, next_of_isSome (by decide +kernel), rfl⟩

theorem witness_OutcomeIndependentOfLatency :
    let hs : List Hrd := [⟨0x0C, 0, 7⟩, ⟨0x02, 0x08, 0⟩]
    let s := pending (busy t6 .average 0 []) (hs.map Input.request ++ [.engine])
    s.status.busy = true ∧ s.inputs = hs.map Input.request ++ [.engine] ∧
    ∃ t : State, Host.Core.run Sys2Proof.core (hs.length + 1) s = .next t := ⟨rfl, rfl, _, rfl⟩

theorem witness_BusyEventuallyEnds : (busy6 .average).status.busy = true := by decide

end Sys2Proof.Tests
end

section
/-! PROOFS of the statements about 00_scope.md: elaboration (R7) and the derived quantities (R8). -/

namespace Sys2Proof

open Sys2Proof.Machine Sys2Proof.Claims

/-! ### Elaboration, one equation a branch -/

/-- The check elaboration makes is the condition of 00_scope.md R7: the two differ only in the grouping
of the ranges of R6 and in the spelling of 2^32 - 1. -/
theorem Geometry.legal_iff_legalGeometry (g : Geometry) : g.Legal ↔ legalGeometry g := by
  simp only [Geometry.Legal, legalGeometry, and_assoc, Nat.reducePow, Nat.reduceSub]

theorem Geometry.elaborate_of_legal {g : Geometry} (h : g.Legal) : g.elaborate = some ⟨g, h⟩ := dif_pos h

theorem Geometry.elaborate_of_not_legal {g : Geometry} (h : ¬ g.Legal) : g.elaborate = none := dif_neg h

/-- Settles O1: the two branches of elaboration, taken on the condition of 00_scope.md R7. -/
theorem elaborationAcceptsExactlyLegalGeometries : Obligations.ElaborationAcceptsExactlyLegalGeometries := by
  intro g
  rw [← g.legal_iff_legalGeometry]
  exact ⟨fun h => ⟨⟨g, h⟩, Geometry.elaborate_of_legal h, rfl⟩, Geometry.elaborate_of_not_legal⟩

/-! ### The derived quantities -/

/-- Settles O2: the model defines each quantity as 00_scope.md R8 does, so the first half is by
definition; the second evaluates them at the default instance. -/
theorem derivedQuantitiesAndDefaults : Obligations.DerivedQuantitiesAndDefaults := by
  constructor
  · intro g
    exact ⟨rfl, rfl, rfl, rfl, rfl, rfl, rfl, rfl, rfl, rfl, rfl, rfl, rfl⟩
  · decide

end Sys2Proof
end

section
/-! SUPPORT. The facts the statements about 10_state.md are put together from: the two forms of the STATUS
word (R32), what keeps the geometry and the constant registers (R22, R46), and what keeps the invariant. -/

namespace Sys2Proof.Machine

/-! ### The STATUS word (10_state.md R32) -/

/-- The word as a concatenation at the width its parts add up to, where the library's rules for
concatenations apply. -/
theorem Status.word_eq_setWidth (st : Status) :
    st.word = (0#18 ++ st.errPlane.bits ++ 0#2 ++ st.mode.bits ++ 0#1 ++ st.errCode.bits ++ 0#1 ++
      BitVec.ofBool st.error ++ BitVec.ofBool st.done ++ BitVec.ofBool st.busy).setWidth 32 :=
  (BitVec.setWidth_eq st.word).symm

/-- The second form of the rule: every field shifted to its lowest bit. -/
theorem Status.word_eq_shifted_fields (st : Status) :
    st.word = (BitVec.ofBool st.busy).setWidth 32 ||| (BitVec.ofBool st.done).setWidth 32 <<< 1 |||
      (BitVec.ofBool st.error).setWidth 32 <<< 2 ||| st.errCode.bits.setWidth 32 <<< 4 |||
      st.mode.bits.setWidth 32 <<< 8 ||| st.errPlane.bits.setWidth 32 <<< 12 := by
  rw [st.word_eq_setWidth]
  repeat rw [BitVec.setWidth_append_eq_shiftLeft_setWidth_or]
  simp only [BitVec.shiftLeft_or_distrib, ← BitVec.shiftLeft_add, BitVec.setWidth_zero, BitVec.zero_shiftLeft,
    BitVec.zero_or, BitVec.or_zero, Nat.reduceAdd]
  ac_rfl

/-- The reserved bits 3, 7, 11:10 and 31:14 are the zero parts of the concatenation. -/
theorem Status.word_reserved_bits (st : Status) :
    ∀ i ∈ ([3, 7, 10, 11] ++ List.range' 14 18 : List Nat), st.word.getLsbD i = false := by
  intro i hi
  rw [st.word_eq_setWidth, BitVec.getLsbD_setWidth]
  simp only [BitVec.getLsbD_append, BitVec.getLsbD_zero]
  fin_cases hi <;> rfl

/-! ### The engine's turn -/

/-- The engine's turn leaves an idle machine as it is, and runs OPERATION on a busy one. -/
theorem engineStep_next {s t : State} (h : engineStep s = .next t) :
    (s.status.busy = false ∧ t = s) ∨ (s.status.busy = true ∧ operation s = .next t) := by
  cases hb : s.status.busy with
  | false => rw [engineStep_idle hb] at h; cases h; exact .inl ⟨rfl, rfl⟩
  | true => rw [engineStep_busy hb] at h; exact .inr ⟨rfl, h⟩

/-! ### The geometry and the constant registers (10_state.md R22, R46) -/

/-- The constant registers are computed from the geometry alone. -/
theorem readReg_constant_of_cfg_eq {s t : State} (h : t.cfg = s.cfg) :
    ∀ r ∈ ([.id, .ctrl, .inDim, .factor, .outDim, .inSize, .outSize] : List Reg), readReg t r = readReg s r := by
  simp [readReg, h]

theorem ExecEffect.cfg_eq {s t : State} {i : Instr} (h : ExecEffect s i t) : t.cfg = s.cfg := by
  cases h <;> rfl

theorem serveRequest_cfg {h : Hrd} {s t : State} (hs : serveRequest h s = .next t) : t.cfg = s.cfg := by
  obtain ⟨r, rfl⟩ | ⟨i, -, he⟩ := serveRequest_next hs
  · rfl
  · exact he.cfg_eq

theorem engineStep_cfg {s t : State} (h : engineStep s = .next t) : t.cfg = s.cfg := by
  obtain ⟨-, rfl⟩ | ⟨-, ho⟩ := engineStep_next h
  · rfl
  · obtain ⟨code, plane, -, rfl⟩ | ⟨-, -, f, -, -, rfl⟩ := operation_next ho <;> rfl

theorem step_cfg {s t : State} (h : step s = .next t) : t.cfg = s.cfg := by
  obtain ⟨r, rest, -, hs⟩ | ⟨-, he⟩ | ⟨rest, -, rfl⟩ := step_next h
  · exact (serveRequest_cfg hs).trans rfl
  · exact (engineStep_cfg he).trans rfl
  · rfl

/-! ### The STATUS values the model writes are consistent -/

theorem Status.reset_consistent : Status.reset.Consistent := by decide

theorem Status.started_consistent {m : Mode} (hm : m ≠ .none) : (Status.started m).Consistent := by
  simp [Status.Consistent, hm]

/-- An error completion is consistent when it has a code, and a plane exactly for SHAPE_DIVISIBILITY. -/
theorem Status.failed_consistent (st : Status) {code : ErrCode} {plane : ErrPlane} (hcode : code ≠ .none)
    (hplane : plane ≠ .none ↔ code = .shapeDivisibility) : (st.failed code plane).Consistent := by
  simp [Status.Consistent, hcode, hplane]

theorem Status.completed_consistent (st : Status) : st.completed.Consistent := by
  simp [Status.Consistent]

/-- A validation failure completes with a consistent STATUS (60_exceptions.md R214). -/
theorem failed_consistent_of_validate {g : Geometry} {len : Word} {code : ErrCode} {plane : ErrPlane}
    (h : validate g len = some (code, plane)) (st : Status) : (st.failed code plane).Consistent := by
  obtain ⟨rfl, rfl⟩ | ⟨rfl, hp⟩ := validate_some h
  · exact st.failed_consistent (by decide) (by decide)
  · exact st.failed_consistent (by decide) (iff_of_true hp rfl)

/-! ### The packer keeps OUT canonical and inside OUT_CAP -/

theorem pack_wf {g : Geometry} {f : Reduced} (h : f.Shaped g) {out : Memory} (hwf : Memory.wf out) :
    Memory.wf (pack g f out).mem := by
  rw [pack_eq h]
  exact packRow_wf (p := ⟨out, 0⟩) hwf _ _

/-- The packed bytes are OUT_FRAME_BYTES many, so they end where OUT ends (45_output_packer.md R197, R199). -/
theorem pack_within {g : Geometry} {f : Reduced} (hg : Divides g) (h : f.Shaped g) {out : Memory}
    (hw : Memory.Within out (outCap g)) : Memory.Within (pack g f out).mem (outCap g) := by
  rw [pack_eq h]
  refine packRow_within (p := ⟨out, 0⟩) hw _ _ (le_of_eq ?_)
  rw [h.length_bytes, Nat.zero_add, outCap, hg.outFrameBytes_eq]

/-! ### The invariant

In the proofs below `{ h with … }` carries over the parts of the invariant that speak of fields the step
leaves alone, and names the others. Where a step ends with BUSY = 0, `busyOutLen` is empty (`nofun`). -/

/-- Any state with the reset STATUS and both memories empty meets the invariant, whatever its geometry. -/
theorem inv_of_reset_fields {t : State} (hstatus : t.status = Status.reset) (hin : t.inMem = [])
    (hout : t.outMem = []) : State.Inv t where
  status := hstatus ▸ Status.reset_consistent
  inWf := hin ▸ .nil
  outWf := hout ▸ .nil
  inWithin := by simp [hin]
  outWithin := by simp [hout]
  busyOutLen := by simp [hstatus]

/-- The invariant does not speak of the pending inputs. -/
theorem State.Inv.withInputs {s : State} (h : State.Inv s) (l : List Input) :
    State.Inv { s with inputs := l } := { h with }

/-- What a request can do keeps the invariant: STATUS changes by a command alone, and the cells written
passed the address check. -/
theorem ExecEffect.keeps_inv {s t : State} {i : Instr} (he : ExecEffect s i t) (h : State.Inv s) :
    State.Inv t := by
  cases he with
  | response | irqEn | inLen => exact { h with }
  | start _ _ _ hm => exact { h with status := Status.started_consistent hm, busyOutLen := fun _ => rfl }
  | clear => exact { h with status := Status.reset_consistent, busyOutLen := nofun }
  | illegal =>
    exact { h with
      status := Status.failed_consistent _ (by decide) (by decide)
      busyOutLen := nofun }
  | store _ _ _ _ _ hcap =>
    exact { h with
      inWf := memWrite_wf h.inWf _ _ _
      inWithin := memWrite_within h.inWithin _ _ _ hcap }

theorem serveRequest_keeps_inv {r : Hrd} {s t : State} (h : State.Inv s) (hs : serveRequest r s = .next t) :
    State.Inv t := by
  obtain ⟨r, rfl⟩ | ⟨i, -, he⟩ := serveRequest_next hs
  · exact { h with }
  · exact he.keeps_inv h

/-- OPERATION keeps the invariant: it ends with BUSY = 0, and what it writes to OUT is one packed frame. -/
theorem operation_keeps_inv {s t : State} (h : State.Inv s) (ho : operation s = .next t) : State.Inv t := by
  obtain ⟨code, plane, hv, rfl⟩ | ⟨-, hg, f, -, hf, rfl⟩ := operation_next ho
  · exact { h with status := failed_consistent_of_validate hv _, busyOutLen := nofun }
  · exact { h with
      status := s.status.completed_consistent
      outWf := pack_wf hf h.outWf
      outWithin := pack_within hg hf h.outWithin
      busyOutLen := nofun }

theorem engineStep_keeps_inv {s t : State} (h : State.Inv s) (he : engineStep s = .next t) : State.Inv t := by
  obtain ⟨-, rfl⟩ | ⟨-, ho⟩ := engineStep_next he
  · exact h
  · exact operation_keeps_inv h ho

end Sys2Proof.Machine
end

section
/-! PROOFS of the statements about 10_state.md: the reset values (R46), the invariant, the geometry and the
constant registers (R22, R46), and the STATUS word (R32). -/

namespace Sys2Proof

open Sys2Proof.Machine

/-- Settles O3: the table of 10_state.md R46 is evaluated row by row; an empty memory reads as no value
at any address. -/
theorem resetValues : Obligations.ResetValues :=
  ⟨rfl, by decide, rfl, rfl, rfl, rfl, rfl, by decide, by decide, by decide, by decide, by decide,
    Memory.read_nil, Memory.read_nil, rfl⟩

/-- Settles O5: the reset state has the reset STATUS and both memories empty. -/
theorem resetMeetsInvariant : Obligations.ResetMeetsInvariant := inv_of_reset_fields rfl rfl rfl

/-- Settles O6: by the three kinds of step: a request served, the engine's turn, a reset. -/
theorem stepKeepsInvariant : Obligations.StepKeepsInvariant := by
  intro s t h hstep
  obtain ⟨r, rest, -, hs⟩ | ⟨-, he⟩ | ⟨rest, -, rfl⟩ := step_next hstep
  · exact serveRequest_keeps_inv (h.withInputs _) hs
  · exact engineStep_keeps_inv (h.withInputs _) he
  · exact inv_of_reset_fields rfl rfl rfl

/-- Settles O7: no step changes the geometry, and the constant registers are computed from it. -/
theorem geometryAndConstantsNeverChange : Obligations.GeometryAndConstantsNeverChange := fun _ _ h =>
  ⟨step_cfg h, readReg_constant_of_cfg_eq (step_cfg h)⟩

/-- Settles O20: the model's word is the concatenation itself; the shifted sum is the same word. -/
theorem statusWordLayout : Obligations.StatusWordLayout := fun st =>
  ⟨rfl, st.word_eq_shifted_fields, st.word_reserved_bits⟩

end Sys2Proof
end

section
/-! SUPPORT. The facts the statements about 20_memory.md are put together from: where a step can fault (R65), the
requests to IN by their width (R61), the reads (R66), and which fields an operation in flight depends on (R70, R71). -/

namespace Sys2Proof.Machine

open Sys2Proof.Claims

/-! ### Faults and refusals of a step (20_memory.md R65) -/

/-- The cell a fault names is unwritten, and it is one of its memory's cells. -/
def Fault.NamesUnwrittenCell (s : State) : Fault → Prop
  | .unwrittenRead .inp a => Memory.read s.inMem a = none ∧ a < inFrameBytes s.cfg.geom
  | .unwrittenRead .out a => Memory.read s.outMem a = none ∧ a < outFrameBytes s.cfg.geom

theorem serveRequest_fault {h : Hrd} {s : State} {f : Fault} (hs : serveRequest h s = .fault f) :
    f.NamesUnwrittenCell s := by
  unfold serveRequest at hs
  split at hs
  · obtain ⟨a, rfl, hcell⟩ | ⟨a, rfl, hcell⟩ := exec_fault hs <;> exact hcell
  · cases hs

theorem engineStep_fault {s : State} {f : Fault} (h : engineStep s = .fault f) : f.NamesUnwrittenCell s := by
  cases hb : s.status.busy with
  | false => rw [engineStep_idle hb] at h; cases h
  | true =>
    rw [engineStep_busy hb] at h
    obtain ⟨-, a, rfl, -, hcell⟩ := operation_fault h
    exact hcell

theorem step_fault {s : State} {f : Fault} (h : step s = .fault f) : f.NamesUnwrittenCell s := by
  unfold step at h
  split at h
  · exact engineStep_fault h
  · exact (serveRequest_fault h :)
  · exact (engineStep_fault h :)
  · cases h

theorem serveRequest_not_refused (h : Hrd) (s : State) (q : Refusal) : serveRequest h s ≠ .refused q := by
  unfold serveRequest
  split
  · exact exec_not_refused _ _ _
  · simp

theorem engineStep_not_refused (s : State) (q : Refusal) : engineStep s ≠ .refused q := by
  unfold engineStep
  split
  · exact operation_not_refused _ _
  · simp

theorem step_not_refused (s : State) (q : Refusal) : step s ≠ .refused q := by
  unfold step
  split
  · exact engineStep_not_refused _ _
  · exact serveRequest_not_refused _ _ _
  · exact engineStep_not_refused _ _
  · simp

/-! ### The requests to IN, by their width (30_encoding.md R83) -/

/-- The model's kind of an IN read of this width. -/
def inReadOf : Width → Kind
  | .byte => .inReadB
  | .half => .inReadH
  | .word => .inReadW

/-- The model's kind of an IN write of this width. -/
def inWriteOf : Width → Kind
  | .byte => .inWriteB
  | .half => .inWriteH
  | .word => .inWriteW

theorem Width.bytes_le (w : Width) : w.bytes ≤ 4 := by cases w <;> decide

@[simp] theorem inReadOf_size (w : Width) : (inReadOf w).size = w.bytes := by cases w <;> rfl
@[simp] theorem inReadOf_space (w : Width) : (inReadOf w).space = .inp := by cases w <;> rfl
@[simp] theorem inReadOf_ne_regWrite (w : Width) : inReadOf w ≠ .regWrite := by cases w <;> decide
@[simp] theorem interlocked_inReadOf (w : Width) (a : Word) : interlocked (inReadOf w) a = false := by cases w <;> rfl
@[simp] theorem inWriteOf_size (w : Width) : (inWriteOf w).size = w.bytes := by cases w <;> rfl
@[simp] theorem inWriteOf_space (w : Width) : (inWriteOf w).space = .inp := by cases w <;> rfl
@[simp] theorem inWriteOf_ne_regWrite (w : Width) : inWriteOf w ≠ .regWrite := by cases w <;> decide
@[simp] theorem interlocked_inWriteOf (w : Width) (a : Word) : interlocked (inWriteOf w) a = true := by cases w <;> rfl

theorem exec_inRead (w : Width) (a : Word) (s : State) :
    exec (inRead w a) s = transact (inReadOf w) a (performInRead a w.bytes) s := by cases w <;> rfl

theorem exec_inWrite (w : Width) (a v : Word) (s : State) :
    exec (inWrite w a v) s = transact (inWriteOf w) a (performInWrite a w.bytes v) s := by cases w <;> rfl

/-- An aligned IN read inside the memory, all of whose cells are written, answers their value, whether BUSY is 0
or 1 (40_host_transactions.md R101, R108). -/
theorem exec_inRead_written {s : State} {w : Width} {a : Word} {bytes : Nat → Byte}
    (hfit : a.toNat + w.bytes ≤ inCap s.cfg.geom) (halign : a.toNat % w.bytes = 0)
    (hcells : ∀ k, k < w.bytes → Memory.read s.inMem (a.toNat + k) = some (bytes k)) :
    exec (inRead w a) s = .next (okay (littleEndian ((List.range w.bytes).map bytes)) s) := by
  have hcheck : checkRequest s (inReadOf w) a = none :=
    checkRequest_eq_none.2 ⟨by simpa using hfit, by simpa using halign, by simp, by simp⟩
  rw [exec_inRead, transact_of_none hcheck, performInRead, memRead_ok hcells]

/-- An aligned IN write inside the memory stores while BUSY = 0 (40_host_transactions.md R109). -/
theorem exec_inWrite_idle {s : State} {w : Width} {a : Word} (v : Word)
    (hfit : a.toNat + w.bytes ≤ inCap s.cfg.geom) (halign : a.toNat % w.bytes = 0) (idle : s.status.busy = false) :
    exec (inWrite w a v) s = .next (okay 0 { s with inMem := memWrite s.inMem a.toNat w.bytes v }) := by
  have hcheck : checkRequest s (inWriteOf w) a = none :=
    checkRequest_eq_none.2 ⟨by simpa using hfit, by simpa using halign, by simp, by simp [idle]⟩
  rw [exec_inWrite, transact_of_none hcheck, performInWrite]

/-- An IN write changes IN alone, beside the response. -/
theorem exec_inWrite_frame {w : Width} {a v : Word} {s t : State} (h : exec (inWrite w a v) s = .next t) :
    t = { s with inMem := t.inMem, response := t.response } := by
  rw [exec_inWrite] at h
  obtain ⟨r, rfl⟩ | ⟨-, -, rfl⟩ := inWrite_effect (by simp) (by simp) (by simp) h <;> rfl

/-! ### Register writes -/

/-- A REG_WRITE to a register's offset gets a bus error, or writes that register. -/
theorem exec_regWrite_next (r : Reg) {v : Word} {s t : State} (h : exec (.regWrite r.offset v) s = .next t) :
    (∃ resp, t = { s with response := some resp }) ∨ ∃ s', writeReg r v s = some s' ∧ t = okay 0 s' := by
  obtain ⟨reason, -, rfl⟩ | ⟨-, hp⟩ := transact_next h
  · exact .inl ⟨_, rfl⟩
  · simp only [performRegWrite, regAt_offset] at hp
    split at hp <;> cases hp
    · next s' hs' => exact .inr ⟨s', hs', rfl⟩
    · exact .inl ⟨_, rfl⟩

/-! ### Reads (20_memory.md R66) -/

/-- A read changes nothing but the response: every other effect of exec belongs to a write. -/
theorem exec_read_frame {i : Instr} {s t : State} (hi : isRead i = true) (h : exec i s = .next t) :
    ∃ r, t = { s with response := some r } := by
  cases exec_effect h with
  | response => exact ⟨_, rfl⟩
  | irqEn | inLen | illegal => cases hi
  | start _ _ _ _ hw => rcases hw with rfl | rfl | rfl | rfl <;> cases hi
  | clear _ _ hw => rcases hw with rfl | rfl <;> cases hi
  | store _ _ _ _ _ _ hw => rcases hw with ⟨rfl, -⟩ | ⟨rfl, -⟩ | ⟨rfl, -⟩ <;> cases hi

/-- The checks and the bus error of a transaction do not look at the last response. -/
theorem transact_withResponse {k : Kind} {a : Word} {p : State → Host.Outcome State Fault Refusal} {s : State}
    {r : Option Response} (hp : p { s with response := r } = p s) :
    transact k a p { s with response := r } = transact k a p s := by
  have hcheck : checkRequest { s with response := r } k a = checkRequest s k a := rfl
  cases hc : checkRequest s k a with
  | some reason => rw [transact_of_some hc, transact_of_some (hcheck.trans hc)]; rfl
  | none => rw [transact_of_none hc, transact_of_none (hcheck.trans hc), hp]

theorem performRegRead_withResponse (a : Word) (s : State) (r : Option Response) :
    performRegRead a { s with response := r } = performRegRead a s := by
  have hread : ∀ reg, readReg { s with response := r } reg = readReg s reg := fun reg => by cases reg <;> rfl
  simp only [performRegRead, hread]
  rfl

/-- What a read does is independent of the last response. -/
theorem exec_read_withResponse {i : Instr} (hi : isRead i = true) (s : State) (r : Option Response) :
    exec i { s with response := r } = exec i s := by
  cases i with
  | regRead a => exact transact_withResponse (performRegRead_withResponse a s r)
  | inReadB | inReadH | inReadW | outReadB | outReadH | outReadW => exact transact_withResponse rfl
  | regWrite | inWriteB | inWriteH | inWriteW | nop | startAvg | startSkip | clearStatus => cases hi

/-- A read answers the same again after any read. -/
theorem exec_read_again {i j : Instr} {s t u : State} (hi : isRead i = true) (hj : isRead j = true)
    (hother : exec j s = .next u) (h : exec i s = .next t) : exec i u = .next t := by
  obtain ⟨r, rfl⟩ := exec_read_frame hj hother
  rw [exec_read_withResponse hi, h]

/-! ### What an operation in flight depends on (20_memory.md R70, R71) -/

/-- The states differ at most in the fields no operation reads or writes: IRQ_EN, what is pending and the last
response. -/
def SameOperation (s t : State) : Prop :=
  ∃ e l r, t = { s with irqEn := e, inputs := l, response := r }

theorem SameOperation.refl (s : State) : SameOperation s s := ⟨_, _, _, rfl⟩

theorem SameOperation.trans {s t u : State} (hst : SameOperation s t) (htu : SameOperation t u) :
    SameOperation s u := by
  obtain ⟨_, _, _, rfl⟩ := hst
  obtain ⟨_, _, _, rfl⟩ := htu
  exact ⟨_, _, _, rfl⟩

theorem SameOperation.symm {s t : State} (h : SameOperation s t) : SameOperation t s := by
  obtain ⟨_, _, _, rfl⟩ := h
  exact ⟨s.irqEn, s.inputs, s.response, rfl⟩

/-- The fields of an operation: its record, its input and its output. -/
theorem SameOperation.fields {s t : State} (h : SameOperation s t) :
    t.status = s.status ∧ t.inMem = s.inMem ∧ t.inLen = s.inLen ∧ t.outMem = s.outMem ∧ t.outLen = s.outLen := by
  obtain ⟨_, _, _, rfl⟩ := h
  exact ⟨rfl, rfl, rfl, rfl, rfl⟩

theorem SameOperation.finish {s t : State} (h : SameOperation s t) (p : Packed) :
    SameOperation (finish p s) (finish p t) := by
  obtain ⟨e, l, r, rfl⟩ := h
  refine ⟨e, l, r, ?_⟩
  unfold Machine.finish
  split <;> rfl

/-- The same operation ends the same way. -/
theorem SameOperation.operation {s t s' : State} (h : SameOperation s t) (hs : operation s = .next s') :
    ∃ t', operation t = .next t' ∧ SameOperation s' t' := by
  obtain ⟨e, l, r, rfl⟩ := h
  unfold Machine.operation at hs ⊢
  simp only
  split at hs
  · cases hs; exact ⟨_, rfl, e, l, r, rfl⟩
  · split at hs
    · cases hs
    · cases hs; exact ⟨_, rfl, .finish ⟨e, l, r, rfl⟩ _⟩

theorem SameOperation.engineStep {s t s' : State} (h : SameOperation s t) (hb : s.status.busy = true)
    (hs : engineStep s = .next s') : ∃ t', engineStep t = .next t' ∧ SameOperation s' t' := by
  have hbt : t.status.busy = true := by rw [h.fields.1, hb]
  rw [engineStep_busy hb] at hs
  rw [engineStep_busy hbt]
  exact h.operation hs

/-- While BUSY = 1 every effect but a write of IRQ_EN is interlocked (40_host_transactions.md R101). -/
theorem ExecEffect.sameOperation {s t : State} {i : Instr} (h : ExecEffect s i t) (hb : s.status.busy = true) :
    SameOperation s t := by
  cases h with
  | response | irqEn => exact ⟨_, _, _, rfl⟩
  | inLen _ idle | start _ _ idle | clear _ idle | illegal _ idle | store _ _ _ _ idle => simp [idle] at hb

theorem serveRequest_sameOperation {h : Hrd} {s t : State} (hb : s.status.busy = true)
    (hs : serveRequest h s = .next t) : SameOperation s t := by
  obtain ⟨r, rfl⟩ | ⟨i, -, he⟩ := serveRequest_next hs
  · exact ⟨_, _, _, rfl⟩
  · exact he.sameOperation hb

/-- The engine's turn ends the operation in flight, if there is one. -/
theorem engineStep_not_busy {s t : State} (h : engineStep s = .next t) : t.status.busy = false := by
  obtain ⟨idle, rfl⟩ | ⟨-, ho⟩ := engineStep_next h
  · exact idle
  · obtain ⟨code, plane, -, rfl⟩ | ⟨-, -, f, -, -, rfl⟩ := operation_next ho <;> rfl

/-- Serving a request leaves what is pending as it is. -/
theorem serveRequest_inputs {h : Hrd} {s t : State} (hs : serveRequest h s = .next t) : t.inputs = s.inputs := by
  obtain ⟨r, rfl⟩ | ⟨i, -, he⟩ := serveRequest_next hs
  · rfl
  · cases he <;> rfl

/-- A request served while BUSY = 1 leaves the operation as it was, and the later entries pending. -/
theorem step_request_sameOperation {h : Hrd} {rest : List Input} {s t : State} (hb : s.status.busy = true)
    (hi : s.inputs = .request h :: rest) (hs : step s = .next t) : SameOperation s t ∧ t.inputs = rest := by
  have hserve : serveRequest h { s with inputs := rest } = .next t := by rw [← hs, step, hi]
  have hdrop : SameOperation s { s with inputs := rest } := ⟨_, _, _, rfl⟩
  exact ⟨hdrop.trans (serveRequest_sameOperation hb hserve), serveRequest_inputs hserve⟩

/-- A run that answers next took its first step and then the others. -/
theorem run_succ_next {s t : State} {k : Nat} (h : Host.Core.run Sys2Proof.core (k + 1) s = .next t) :
    ∃ s', step s = .next s' ∧ Host.Core.run Sys2Proof.core k s' = .next t := by
  cases hs : step s with
  | next s' => rw [run_of_next hs] at h; exact ⟨s', rfl, h⟩
  | fault f => rw [run_of_fault hs] at h; cases h
  | refused q => rw [run_of_refused hs] at h; cases h

/-- The requests served while BUSY = 1 lead to a state with the same operation in flight. -/
theorem run_requests_sameOperation {hs : List Hrd} {rest : List Input} {k : Nat} {s t : State}
    (hb : s.status.busy = true) (hi : s.inputs = hs.map Input.request ++ rest)
    (hrun : Host.Core.run Sys2Proof.core (hs.length + k) s = .next t) :
    ∃ s', SameOperation s s' ∧ s'.inputs = rest ∧ Host.Core.run Sys2Proof.core k s' = .next t := by
  induction hs generalizing s with
  | nil => exact ⟨s, .refl s, hi, by simpa using hrun⟩
  | cons h hs ih =>
    rw [List.length_cons, Nat.add_right_comm] at hrun
    obtain ⟨s₁, hstep, hrun⟩ := run_succ_next hrun
    obtain ⟨hsame, hi₁⟩ := step_request_sameOperation hb hi hstep
    obtain ⟨s', hsame', hi', hrun'⟩ := ih (by rw [hsame.fields.1, hb]) hi₁ hrun
    exact ⟨s', hsame.trans hsame', hi', hrun'⟩

/-! ### The read order of an operation (43_average_reducer.md R165, R166; 44_skip_reducer.md R184) -/

/-- The checks of Validate, in the words of the statements (42_plane_splitter.md R148). -/
theorem validate_of_validFrame {s : State} (h : validFrame s) : validate s.cfg.geom s.inLen = none := by
  obtain ⟨hsize, hformat, hluma, hchroma⟩ := h
  exact validate_eq_none.2
    ⟨inputSizeOk_iff.2 hsize, formatOk_iff.2 hformat, lumaDivOk_iff.2 hluma, chromaDivOk_iff.2 hchroma⟩

/-- The cells a mode reads, in their order. -/
theorem reduceFrame_reads {m : Mode} (hm : isReducing m) (g : Geometry) (mem : Memory) :
    ReadsInOrder mem (if m = .average then averageReadOrder g else skipReadOrder g) (reduceFrame m g mem) := by
  obtain rfl | rfl := hm
  · exact avgFrame_reads g mem
  · exact skipFrame_reads g mem

theorem operation_of_reduce_error {s : State} {a : Nat} (hv : validate s.cfg.geom s.inLen = none)
    (h : reduceFrame s.status.mode s.cfg.geom s.inMem = .error a) :
    operation s = .fault (.unwrittenRead .inp a) := by rw [operation, hv, h]

theorem operation_of_reduce_ok {s : State} {f : Reduced} (hv : validate s.cfg.geom s.inLen = none)
    (h : reduceFrame s.status.mode s.cfg.geom s.inMem = .ok f) :
    operation s = .next (finish (pack s.cfg.geom f s.outMem) s) := by rw [operation, hv, h]

end Sys2Proof.Machine
end

section
/-! PROOFS of the statements about 20_memory.md: the model fault (R65), the values that IN keeps (R61), reads (R66),
and the window in which BUSY = 1 (R70, R71). -/

namespace Sys2Proof

open Sys2Proof.Machine Sys2Proof.Claims

/-- Settles O15: no step refuses, and each fault comes from a request's read or from OPERATION's. -/
theorem stepStopsOnlyOnUnwrittenCells : Obligations.StepStopsOnlyOnUnwrittenCells := by
  refine ⟨step_not_refused, fun s m a h => ?_⟩
  have hcell := step_fault h
  cases m <;> exact hcell

/-- Settles O33: the cells read hold the byte lanes of WDATA, whose value is its low 8n bits. -/
theorem writeThenReadReturnsValue : Obligations.WriteThenReadReturnsValue := by
  intro s t w a v hfit halign idle hwrite
  rw [exec_inWrite_idle v hfit halign idle, Host.Outcome.next.injEq] at hwrite
  have hfit' : a.toNat + w.bytes ≤ inCap t.cfg.geom := by rw [← hwrite]; exact hfit
  have hcells : ∀ k, k < w.bytes → Memory.read t.inMem (a.toNat + k) = some (byteLane v k) := fun k hk => by
    simp [← hwrite, Memory.read_memWrite, hk]
  rw [exec_inRead_written hfit' halign hcells, littleEndian_byteLane v (Width.bytes_le w)]
  rfl

/-- Settles O36: a read changes the response alone, which no read looks at; each plain write changes its own field. -/
theorem readsHaveNoSideEffect : Obligations.ReadsHaveNoSideEffect := by
  refine ⟨fun i s t hi h => ?_, fun _ _ _ _ _ => exec_inWrite_frame, fun v s t h => ?_, fun v s t h => ?_⟩
  · have hagain : exec i t = .next t := exec_read_again hi hi h h
    exact ⟨exec_read_frame hi h, hagain, fun j u hj hu => exec_read_again hi hj hu hagain⟩
  · obtain ⟨r, rfl⟩ | ⟨s', hs', rfl⟩ := exec_regWrite_next .inLen h
    · rfl
    · cases hs'; rfl
  · obtain ⟨r, rfl⟩ | ⟨s', hs', rfl⟩ := exec_regWrite_next .irqEn h
    · rfl
    · cases hs'; rfl

/-- Settles O38: a request leaves the operation as it was; the engine step and a reset both leave BUSY = 0. -/
theorem busyWindowFreezesOperation : Obligations.BusyWindowFreezesOperation := by
  intro s t hb hstep
  refine ⟨fun h rest hi => (step_request_sameOperation hb hi hstep).1.fields, fun hbt => ?_⟩
  obtain ⟨h, rest, hi, -⟩ | ⟨-, hengine⟩ | ⟨rest, -, rfl⟩ := step_next hstep
  · exact ⟨h, rest, hi⟩
  · simp [engineStep_not_busy hengine] at hbt
  · cases hbt

/-- Settles O49: a valid frame is reduced, and the reduction reads its mode's cells in order. -/
theorem engineFaultsAtFirstUnwrittenCell : Obligations.EngineFaultsAtFirstUnwrittenCell := by
  intro s hb hvalid hmode
  have hv := validate_of_validFrame hvalid
  have hreads := reduceFrame_reads hmode s.cfg.geom s.inMem
  rw [engineStep_busy hb]
  unfold ReadsInOrder at hreads
  split at hreads
  · next a hfind =>
    simp only [hfind]
    exact operation_of_reduce_error hv hreads
  · next hfind =>
    obtain ⟨f, hf⟩ := hreads
    simp only [hfind]
    exact ⟨_, operation_of_reduce_ok hv hf⟩

/-- Settles O58: the requests lead to a state with the same operation in flight, which ends the same way. -/
theorem outcomeIndependentOfLatency : Obligations.OutcomeIndependentOfLatency := by
  intro s t hs hb hi hrun
  obtain ⟨s', hsame, hi', hrun'⟩ := run_requests_sameOperation hb hi hrun
  obtain ⟨t', hstep, ht'⟩ := run_succ_next hrun'
  cases ht'
  have hengine : engineStep { s' with inputs := [] } = .next t := by rw [← hstep, step, hi']
  have hback : SameOperation { s' with inputs := [] } { s with inputs := [] } :=
    .trans ⟨_, _, _, rfl⟩ (hsame.symm.trans ⟨_, _, _, rfl⟩)
  obtain ⟨u, hu, hsameEnd⟩ := hback.engineStep (by rw [← hb, ← hsame.fields.1]) hengine
  obtain ⟨hstatus, hin, hlen, hout, houtLen⟩ := hsameEnd.symm.fields
  exact ⟨u, hu, hstatus, hout, houtLen, hin, hlen⟩

end Sys2Proof
end

section
/-! SUPPORT. The facts the statements about 30_encoding.md are put together from: KIND and its bits (R83), the words
of CTRL (R85), what the decoder answers, and the encoding of what it answers (R81, R86). -/

namespace Sys2Proof

open Sys2Proof.Claims

/-! ### KIND (30_encoding.md R83, R87) -/

@[simp] theorem Kind.ofBits_bits (k : Kind) : Kind.ofBits k.bits = some k := by cases k <;> rfl

/-- The match on KIND answers a row of the table for that row's own bits alone. -/
theorem Kind.bits_eq_of_ofBits {b : BitVec 5} {k : Kind} (h : Kind.ofBits b = some k) : k.bits = b := by
  unfold Kind.ofBits at h
  iterate 11 (rcases ite_eq_iff.1 h with ⟨hb, hk⟩ | ⟨-, h⟩; · rw [hb, ← Option.some.inj hk]; rfl)
  exact absurd h (by simp)

theorem Kind.bits_mem_legalKinds (k : Kind) : k.bits ∈ legalKinds := by cases k <;> decide

theorem Kind.ofBits_eq_none_of_not_mem {b : BitVec 5} (h : b ∉ legalKinds) : Kind.ofBits b = none :=
  Option.eq_none_iff_forall_ne_some.2 fun k hk => h (Kind.bits_eq_of_ofBits hk ▸ k.bits_mem_legalKinds)

/-! ### The CTRL word (30_encoding.md R85, log entry 10) -/

theorem isCommandWord_eq_false {w : Word} (h0 : w ≠ 0) (h1 : w ≠ 1) (h2 : w ≠ 2) (h3 : w ≠ 3) :
    isCommandWord w = false :=
  decide_eq_false (Nat.not_le.2 (Machine.gt_three_of_not_command h0 h1 h2 h3))

/-- The four command words, by the command each decodes to; any other word decodes to none. -/
theorem decodeCommand_cases (w : Word) :
    (isCommandWord w = true ∧
      ∃ i, decodeCommand w = some i ∧ i.wellFormed = true ∧ encode i = ⟨0x06, ctrlOffset, w⟩) ∨
    (isCommandWord w = false ∧ decodeCommand w = none) := by
  by_cases h0 : w = 0
  · subst h0; exact .inl ⟨rfl, .nop, rfl, rfl, rfl⟩
  by_cases h1 : w = 1
  · subst h1; exact .inl ⟨rfl, .startAvg, rfl, rfl, rfl⟩
  by_cases h2 : w = 2
  · subst h2; exact .inl ⟨rfl, .startSkip, rfl, rfl, rfl⟩
  by_cases h3 : w = 3
  · subst h3; exact .inl ⟨rfl, .clearStatus, rfl, rfl, rfl⟩
  exact .inr ⟨isCommandWord_eq_false h0 h1 h2 h3,
    (if_neg h0).trans <| (if_neg h1).trans <| (if_neg h2).trans <| if_neg h3⟩

theorem wellFormed_regWrite {a v : Word} :
    (Instr.regWrite a v).wellFormed = true ↔ a ≠ ctrlOffset ∨ isCommandWord v = false := by
  simp [Instr.wellFormed, ctrlOffset]

/-- Outside CTRL, and at CTRL with a word that is no command, a REG_WRITE decodes to itself: the well-formed case. -/
theorem decodeRegWrite_of_wellFormed {a v : Word} (h : (Instr.regWrite a v).wellFormed = true) :
    decodeRegWrite a v = .regWrite a v := by
  unfold decodeRegWrite
  split
  · next ha =>
    have hno : isCommandWord v = false := (wellFormed_regWrite.1 h).resolve_left (not_not_intro ha)
    obtain ⟨hcmd, -⟩ | ⟨-, hnone⟩ := decodeCommand_cases v
    · rw [hcmd] at hno; cases hno
    · rw [hnone, Option.getD_none]
  · rfl

/-- What a REG_WRITE decodes to is well formed, and its encoding is the request itself. -/
theorem decodeRegWrite_spec (a v : Word) :
    (decodeRegWrite a v).wellFormed = true ∧ encode (decodeRegWrite a v) = ⟨0x06, a, v⟩ := by
  unfold decodeRegWrite
  split
  · next ha =>
    obtain ⟨-, i, hi, hiwf, henc⟩ | ⟨hno, hnone⟩ := decodeCommand_cases v
    · rw [hi, Option.getD_some, ha]
      exact ⟨hiwf, henc⟩
    · rw [hnone, Option.getD_none]
      exact ⟨wellFormed_regWrite.2 (.inr hno), rfl⟩
  · next ha => exact ⟨wellFormed_regWrite.2 (.inl ha), rfl⟩

/-! ### The decoder -/

/-- A legal KIND decodes to its row's instruction. -/
theorem decode_bits (k : Kind) (a v : Word) : decode ⟨k.bits, a, v⟩ = .ok (decodeKind k a v) := by
  rw [decode, Kind.ofBits_bits]

theorem decode_illegal {h : Hrd} (hk : h.kind ∉ legalKinds) : decode h = .error .illegalKind := by
  rw [decode, Kind.ofBits_eq_none_of_not_mem hk]

/-- A request that decodes has a row's KIND, and is that row's instruction. -/
theorem decode_ok {h : Hrd} {i : Instr} (hi : decode h = .ok i) :
    ∃ k : Kind, k.bits = h.kind ∧ i = decodeKind k h.addr h.wdata := by
  unfold decode at hi
  split at hi
  · next k hk => exact ⟨k, Kind.bits_eq_of_ofBits hk, (Except.ok.inj hi).symm⟩
  · cases hi

/-- A well-formed instruction comes back from its request. -/
theorem decode_encode {i : Instr} (h : i.wellFormed = true) : decode (encode i) = .ok i := by
  cases i with
  | regWrite a v => exact (decode_bits .regWrite a v).trans (congrArg _ (decodeRegWrite_of_wellFormed h))
  | _ => rfl

theorem wellFormed_decodeKind (k : Kind) (a v : Word) : (decodeKind k a v).wellFormed = true := by
  cases k with
  | regWrite => exact (decodeRegWrite_spec a v).1
  | _ => rfl

/-- The encoding of what a request decodes to is that request, up to the WDATA a read (WR = 0) ignores. -/
theorem encode_decodeKind (k : Kind) (a v : Word) :
    encode (decodeKind k a v) = ⟨k.bits, a, if k.bits.getLsbD 2 then v else 0⟩ := by
  cases k with
  | regWrite => exact (decodeRegWrite_spec a v).2
  | _ => rfl

end Sys2Proof

namespace Sys2Proof.Machine

/-! ### The host script (30_encoding.md R91, log entry 11) -/

/-- The byte writes of `load`: byte j goes to ADDR + j. -/
theorem loadRequests_eq_mapIdx (a : Word) (bytes : List Word) :
    loadRequests a bytes = bytes.mapIdx fun j b => encode (.inWriteB (a + BitVec.ofNat 32 j) b) := by
  induction bytes generalizing a with
  | nil => rfl
  | cons b bs ih =>
    have hnext : ∀ j, a + 1 + BitVec.ofNat 32 j = a + BitVec.ofNat 32 (j + 1) := fun j => by
      rw [BitVec.ofNat_add, BitVec.add_assoc, BitVec.add_comm 1]; rfl
    have hfirst : a + BitVec.ofNat 32 0 = a := BitVec.add_zero a
    rw [loadRequests, ih, List.mapIdx_cons, hfirst]
    simp only [hnext]
    rfl

end Sys2Proof.Machine
end

section
/-! PROOFS of the statements about 30_encoding.md: the decoder and the encoder (R81, R83, R85, R86) and the host
script (R90, R91). -/

namespace Sys2Proof

open Sys2Proof.Machine

/-- Settles O8: the decoder inverts the encoder, and the encoding of a decoded request is read off its row. -/
theorem decodeAndEncodeAgree : Obligations.DecodeAndEncodeAgree := by
  refine ⟨fun i => decode_encode, fun h i hi => ?_⟩
  obtain ⟨k, hkind, rfl⟩ := decode_ok hi
  rw [encode_decodeKind, ← hkind]
  exact ⟨wellFormed_decodeKind _ _ _, rfl, rfl, fun hwr => if_pos hwr, fun hrd => if_neg (Bool.eq_false_iff.1 hrd)⟩

/-- Settles O9: a row decodes to its instruction, and a KIND outside the table is no row's. -/
theorem kindTableDecodes : Obligations.KindTableDecodes := by
  refine ⟨fun a v => ?_, fun v => ?_, fun k => ?_, fun h => decode_illegal⟩
  · have hregWrite (ha : a ≠ 0x04) : decode ⟨0x06, a, v⟩ = .ok (.regWrite a v) :=
      decode_encode (i := .regWrite a v) (wellFormed_regWrite.2 (.inl ha))
    exact ⟨decode_bits .regRead a v, hregWrite, decode_bits .inReadB a v, decode_bits .inReadH a v,
      decode_bits .inReadW a v, decode_bits .inWriteB a v, decode_bits .inWriteH a v, decode_bits .inWriteW a v,
      decode_bits .outReadB a v, decode_bits .outReadH a v, decode_bits .outReadW a v⟩
  · exact ⟨decodeRegWrite 0x04 v, decode_bits .regWrite 0x04 v, (decodeRegWrite_spec 0x04 v).2⟩
  · cases k <;> decide

/-- Settles O10: the four commands come back from their encodings; a REG_WRITE of any other word to CTRL is well
formed, so it comes back as itself. -/
theorem ctrlWordTableDecodes : Obligations.CtrlWordTableDecodes := by
  refine ⟨decode_encode (i := .nop) rfl, decode_encode (i := .startAvg) rfl, decode_encode (i := .startSkip) rfl,
    decode_encode (i := .clearStatus) rfl, fun w h0 h1 h2 h3 => ?_⟩
  exact decode_encode (i := .regWrite 0x04 w) (wellFormed_regWrite.2 (.inr (isCommandWord_eq_false h0 h1 h2 h3)))

/-- Settles O11: eight closed words, each evaluated. -/
theorem sampleTableWordsDecode : Obligations.SampleTableWordsDecode := by
  unfold Obligations.SampleTableWordsDecode
  decide

/-- Settles O12: every line is its requests by definition; those of `load` and `fill` are indexed by their byte. -/
theorem scriptLinesExpand : Obligations.ScriptLinesExpand := by
  refine ⟨fun a v => ⟨rfl, rfl, rfl, rfl, rfl, rfl, rfl, rfl, rfl, rfl, rfl⟩, rfl, rfl, rfl, rfl, fun k _ => rfl,
    fun a bytes j hj => ?_, fun a n v j hj => ?_⟩
  · simp [ScriptLine.requests, loadRequests_eq_mapIdx, hj]
  · simp [ScriptLine.requests, loadRequests_eq_mapIdx, hj]

end Sys2Proof
end

section
/-! SUPPORT. The facts the statements about 40_host_transactions.md are put together from: the first failing check in
the words of the statements (R112, R113), how a request of each kind is served (R100), the register requests (R102,
R103), the frame memory requests by their width (R108 to R110), and what an instruction leaves unchanged. -/

namespace Sys2Proof.Machine

open Sys2Proof.Claims

/-! ### The first failing check, on the bits of KIND (40_host_transactions.md R100, R112, R113) -/

@[simp] theorem kindBytes_bits (k : Kind) : kindBytes k.bits = k.size := by cases k <;> rfl

@[simp] theorem kindSpaceBytes_bits (g : Geometry) (k : Kind) : kindSpaceBytes g k.bits = spaceSize g k.space := by
  cases k <;> rfl

theorem bits_eq_regWrite {k : Kind} : k.bits = 0x06 ↔ k = .regWrite := by cases k <;> decide

theorem isReadOnlyOffset_iff {a : Word} : isReadOnlyOffset a = true ↔ a ∈ roOffsets := decide_eq_true_iff

theorem interlockedRequest_bits {k : Kind} {a : Word} : interlockedRequest k.bits a ↔ interlocked k a = true := by
  cases k <;> simp [interlockedRequest, interlocked, Kind.bits]

/-- A KIND of the table is a row's. -/
theorem exists_kind_of_mem_legalKinds : ∀ b : BitVec 5, b ∈ legalKinds → ∃ k : Kind, k.bits = b := by
  simp only [legalKinds, List.forall_mem_cons]
  exact ⟨⟨.regRead, rfl⟩, ⟨.regWrite, rfl⟩, ⟨.inReadB, rfl⟩, ⟨.inReadH, rfl⟩, ⟨.inReadW, rfl⟩, ⟨.inWriteB, rfl⟩,
    ⟨.inWriteH, rfl⟩, ⟨.inWriteW, rfl⟩, ⟨.outReadB, rfl⟩, ⟨.outReadH, rfl⟩, ⟨.outReadW, rfl⟩, nofun⟩

section
variable {s : State} {k : Kind} {a v : Word} {r : BusReason}

/-- A first failing check of the statements is the one the model reports. -/
theorem checkRequest_of_getsReason (h : getsReason s ⟨k.bits, a, v⟩ r) : checkRequest s k a = some r := by
  cases r with
  | illegalKind => exact absurd k.bits_mem_legalKinds h
  | outOfRange =>
    obtain ⟨-, hrange⟩ := h
    exact checkRequest_outOfRange (by simpa using hrange)
  | misaligned =>
    obtain ⟨-, hfit, halign⟩ := h
    exact checkRequest_misaligned (by simpa using hfit) (by simpa using halign)
  | readOnly =>
    obtain ⟨hkind, hro⟩ := h
    obtain rfl := bits_eq_regWrite.1 hkind
    exact checkRequest_readOnly (isReadOnlyOffset_iff.2 hro)
  | busy =>
    obtain ⟨-, hfit, halign, hb, hi⟩ := h
    have hi := interlockedRequest_bits.1 hi
    refine checkRequest_busy (by simpa using hfit) (by simpa using halign) ?_ hb hi
    rintro ⟨rfl, hro⟩
    obtain rfl | rfl : a = 0x04 ∨ a = 0x10 := by simpa [interlocked] using hi
    all_goals cases hro

/-- The check the model reports is the first one of the statements that fails. -/
theorem getsReason_of_checkRequest (h : checkRequest s k a = some r) : getsReason s ⟨k.bits, a, v⟩ r := by
  have hlegal := k.bits_mem_legalKinds
  by_cases hfit : a.toNat + k.size ≤ spaceSize s.cfg.geom k.space
  case neg =>
    rw [checkRequest_outOfRange (Nat.not_le.1 hfit)] at h
    cases h
    exact ⟨hlegal, by simpa using hfit⟩
  by_cases halign : a.toNat % k.size = 0
  case neg =>
    rw [checkRequest_misaligned hfit halign] at h
    cases h
    exact ⟨hlegal, by simpa using hfit, by simpa using halign⟩
  by_cases hro : k = .regWrite ∧ isReadOnlyOffset a = true
  case pos =>
    obtain ⟨rfl, hro⟩ := hro
    rw [checkRequest_readOnly hro] at h
    cases h
    exact ⟨rfl, isReadOnlyOffset_iff.1 hro⟩
  by_cases hbusy : s.status.busy = true ∧ interlocked k a = true
  case pos =>
    rw [checkRequest_busy hfit halign hro hbusy.1 hbusy.2] at h
    cases h
    exact ⟨hlegal, by simpa using hfit, by simpa using halign, hbusy.1, interlockedRequest_bits.2 hbusy.2⟩
  rw [checkRequest_eq_none.2 ⟨hfit, halign, hro, hbusy⟩] at h
  cases h

/-- The checks of a legal kind report a reason exactly when it is the first that fails. -/
theorem checkRequest_eq_some : checkRequest s k a = some r ↔ getsReason s ⟨k.bits, a, v⟩ r :=
  ⟨getsReason_of_checkRequest, checkRequest_of_getsReason⟩

end

/-- An illegal KIND is the first check that fails, and the only one. -/
theorem getsReason_of_illegal_kind {s : State} {h : Hrd} {r : BusReason} (hk : h.kind ∉ legalKinds) :
    getsReason s h r ↔ r = .illegalKind := by
  cases r with
  | illegalKind => exact iff_of_true hk rfl
  | outOfRange | misaligned | busy => exact iff_of_false (fun hr => hk hr.1) nofun
  | readOnly => exact iff_of_false (fun hr => hk (hr.1 ▸ Kind.bits_mem_legalKinds .regWrite)) nofun

/-! ### Register requests by the register (40_host_transactions.md R102, R103) -/

/-- Every register stands aligned inside the register space (10_state.md R23). -/
theorem Reg.offset_fits (r : Reg) : r.offset.toNat + 4 ≤ 0x2C ∧ r.offset.toNat % 4 = 0 := by cases r <;> decide

/-- A REG_READ of a register passes every check, whether BUSY is 0 or 1. -/
theorem checkRequest_regRead_offset (s : State) (r : Reg) : checkRequest s .regRead r.offset = none :=
  checkRequest_eq_none.2 ⟨r.offset_fits.1, r.offset_fits.2, nofun, nofun⟩

/-- A REG_READ of a register answers its value and writes nothing but the response. -/
theorem exec_regRead_offset (s : State) (r : Reg) : exec (.regRead r.offset) s = .next (okay (readReg s r) s) := by
  rw [exec_regRead, transact_of_none (checkRequest_regRead_offset s r), performRegRead, regAt_offset]

/-- A REG_WRITE that passes its checks writes the register. -/
theorem exec_regWrite_offset {s s' : State} {r : Reg} {v : Word} (hc : checkRequest s .regWrite r.offset = none)
    (hw : writeReg r v s = some s') : exec (.regWrite r.offset v) s = .next (okay 0 s') := by
  simp only [exec_regWrite, transact_of_none hc, performRegWrite, regAt_offset, hw]

/-- A REG_WRITE to IRQ_EN is not interlocked (40_host_transactions.md R105). -/
theorem exec_regWrite_irqEn (s : State) (v : Word) :
    exec (.regWrite 0x0C v) s = .next (okay 0 { s with irqEn := v.getLsbD 0 }) :=
  exec_regWrite_offset (r := .irqEn)
    (checkRequest_eq_none.2 ⟨Reg.irqEn.offset_fits.1, by decide, by decide, by simp [interlocked, Reg.offset]⟩) rfl

/-- A REG_WRITE to IN_LEN stores any value while BUSY = 0 (40_host_transactions.md R106). -/
theorem exec_regWrite_inLen {s : State} (v : Word) (idle : s.status.busy = false) :
    exec (.regWrite 0x10 v) s = .next (okay 0 { s with inLen := v }) :=
  exec_regWrite_offset (r := .inLen)
    (checkRequest_eq_none.2 ⟨Reg.inLen.offset_fits.1, by decide, by decide, by simp [idle]⟩) rfl

theorem exec_regWrite_readOnly {s : State} {a : Word} (v : Word) (h : a ∈ roOffsets) :
    exec (.regWrite a v) s = .next (rejected s .readOnly 0x06 a) :=
  transact_of_some (checkRequest_readOnly (isReadOnlyOffset_iff.2 h))

section
variable {s : State} (hb : s.status.busy = true)
include hb

/-- While BUSY = 1 the checks of a REG_WRITE to CTRL or IN_LEN end in Busy (40_host_transactions.md R101). -/
theorem checkRequest_regWrite_busy {a : Word} (ha : a = 0x04 ∨ a = 0x10) :
    checkRequest s .regWrite a = some .busy := by
  obtain rfl | rfl := ha
  · exact checkRequest_busy Reg.ctrl.offset_fits.1 (by decide) (by decide) hb rfl
  · exact checkRequest_busy Reg.inLen.offset_fits.1 (by decide) (by decide) hb rfl

theorem exec_regWrite_busy {a : Word} (v : Word) (ha : a = 0x04 ∨ a = 0x10) :
    exec (.regWrite a v) s = .next (rejected s .busy 0x06 a) :=
  transact_of_some (checkRequest_regWrite_busy hb ha)

/-- While BUSY = 1 no command runs, whichever it is. -/
theorem writeCtrl_busy (cmd : State → State) : writeCtrl cmd s = .next (rejected s .busy 0x06 0x04) :=
  transact_of_some (checkRequest_regWrite_busy hb (.inl rfl))

end

/-- The two 16-bit halves of a register that reports a pair (10_state.md R36 to R38). -/
theorem ofNat_append_ofNat (hi : Nat) {lo : Nat} (h : lo < 65536) :
    (BitVec.ofNat 16 hi ++ BitVec.ofNat 16 lo : Word) = BitVec.ofNat 32 (hi * 65536 + lo) := by
  apply BitVec.eq_of_toNat_eq
  rw [BitVec.toNat_append, ← Nat.shiftLeft_add_eq_or_of_lt (BitVec.isLt _), Nat.shiftLeft_eq]
  simp only [BitVec.toNat_ofNat]
  omega

/-- FX and OUT_W fit the halves they are reported in (00_scope.md R7). -/
theorem fx_lt (c : Config) : c.geom.fx < 65536 := by
  obtain ⟨-, hy, hxy, -⟩ := c.legal
  exact Nat.lt_of_le_of_lt ((Nat.le_mul_of_pos_right _ hy).trans hxy) (by decide)

theorem inW_lt (c : Config) : c.geom.inW < 65536 := by
  obtain ⟨-, -, -, -, hw, -⟩ := c.legal
  exact Nat.lt_succ_of_le hw

/-- A REG_READ of a register that reports a pair, as one number. -/
theorem exec_regRead_pair {s : State} {r : Reg} {hi lo : Nat} (hlo : lo < 65536)
    (hr : readReg s r = BitVec.ofNat 16 hi ++ BitVec.ofNat 16 lo) :
    exec (.regRead r.offset) s = .next (accepted s (BitVec.ofNat 32 (hi * 65536 + lo))) := by
  rw [exec_regRead_offset, hr, ofNat_append_ofNat hi hlo]
  rfl

/-- IRQ_EN reads as its one bit (10_state.md R33). -/
theorem readReg_irqEn (s : State) : readReg s .irqEn = BitVec.ofNat 32 s.irqEn.toNat := by
  rw [readReg]
  cases s.irqEn <;> rfl

/-! ### Serving a request (40_host_transactions.md R100, R111) -/

/-- What a request of a legal kind does once its checks pass. -/
def performKind (k : Kind) (addr wdata : Word) : State → Host.Outcome State Fault Refusal :=
  match k with
  | .regRead => performRegRead addr
  | .regWrite => performRegWrite addr wdata
  | .inReadB | .inReadH | .inReadW => performInRead addr k.size
  | .inWriteB | .inWriteH | .inWriteW => performInWrite addr k.size wdata
  | .outReadB | .outReadH | .outReadW => performOutRead addr k.size

/-- The two spellings of a command mean the same (log entry 10). -/
theorem exec_decodeRegWrite (a v : Word) (s : State) : exec (decodeRegWrite a v) s = exec (.regWrite a v) s := by
  by_cases hwf : (Instr.regWrite a v).wellFormed = true
  · rw [decodeRegWrite_of_wellFormed hwf]
  · simp only [wellFormed_regWrite, not_or, not_not, Bool.not_eq_false] at hwf
    obtain ⟨rfl, hv⟩ := hwf
    obtain rfl | rfl | rfl | rfl : v = 0 ∨ v = 1 ∨ v = 2 ∨ v = 3 := by
      have := of_decide_eq_true hv
      bv_omega
    all_goals rfl

theorem exec_decodeKind (k : Kind) (a v : Word) (s : State) :
    exec (decodeKind k a v) s = transact k a (performKind k a v) s := by
  cases k with
  | regWrite => exact exec_decodeRegWrite a v s
  | _ => rfl

theorem serveRequest_of_decode {h : Hrd} {i : Instr} (hi : decode h = .ok i) (s : State) :
    serveRequest h s = exec i s := by rw [serveRequest, hi]

theorem serveRequest_legal (k : Kind) (a v : Word) (s : State) :
    serveRequest ⟨k.bits, a, v⟩ s = transact k a (performKind k a v) s := by
  rw [serveRequest_of_decode (decode_bits k a v), exec_decodeKind]

theorem serveRequest_illegal {h : Hrd} (hk : h.kind ∉ legalKinds) (s : State) :
    serveRequest h s = .next (busError .illegalKind h.kind h.addr s) := by rw [serveRequest, decode_illegal hk]

theorem step_request {s : State} {h : Hrd} {rest : List Input} (hi : s.inputs = .request h :: rest) :
    step s = serveRequest h { s with inputs := rest } := by rw [step, hi]

/-- How a transaction that gets no bus error ends: with OKAY, or in the model fault. -/
def Answers (o : Host.Outcome State Fault Refusal) : Prop :=
  (∃ t v, o = .next t ∧ t.response = some (.okay v)) ∨ ∃ m a, o = .fault (.unwrittenRead m a)

theorem performInRead_answers (a : Word) (n : Nat) (s : State) : Answers (performInRead a n s) := by
  unfold performInRead
  split
  · exact .inl ⟨_, _, rfl, rfl⟩
  · exact .inr ⟨_, _, rfl⟩

theorem performOutRead_answers (a : Word) (n : Nat) (s : State) : Answers (performOutRead a n s) := by
  unfold performOutRead
  split
  · exact .inl ⟨_, _, rfl, rfl⟩
  · exact .inr ⟨_, _, rfl⟩

/-- The registers that are not written are the ones at the read-only offsets (40_host_transactions.md R100). -/
theorem writeReg_isSome {r : Reg} (h : isReadOnlyOffset r.offset = false) (v : Word) (s : State) :
    ∃ s', writeReg r v s = some s' := by
  cases r with
  | ctrl | irqEn | inLen => exact ⟨_, rfl⟩
  | _ => cases h

/-- A request of a legal kind that passes its checks gets no bus error. -/
theorem performKind_answers {s : State} {k : Kind} {a : Word} (hc : checkRequest s k a = none) (v : Word) :
    Answers (performKind k a v s) := by
  obtain ⟨hfit, halign, hro, -⟩ := checkRequest_eq_none.1 hc
  cases k with
  | regRead =>
    obtain ⟨r, hr⟩ := regAt_isSome hfit halign
    obtain rfl := eq_offset_of_regAt hr
    exact .inl ⟨_, _, (transact_of_none hc).symm.trans (exec_regRead_offset s r), rfl⟩
  | regWrite =>
    obtain ⟨r, hr⟩ := regAt_isSome hfit halign
    obtain rfl := eq_offset_of_regAt hr
    obtain ⟨s', hw⟩ := writeReg_isSome (by simpa using hro) v s
    exact .inl ⟨_, _, (transact_of_none hc).symm.trans (exec_regWrite_offset hc hw), rfl⟩
  | inReadB | inReadH | inReadW => exact performInRead_answers _ _ _
  | inWriteB | inWriteH | inWriteW => exact .inl ⟨_, _, rfl, rfl⟩
  | outReadB | outReadH | outReadW => exact performOutRead_answers _ _ _

/-- A request ends in the bus error of its first failing check. -/
theorem serveRequest_of_getsReason {s : State} {h : Hrd} {r : BusReason} (hr : getsReason s h r) :
    serveRequest h s = .next (busError r h.kind h.addr s) := by
  by_cases hk : h.kind ∈ legalKinds
  · obtain ⟨kind, a, v⟩ := h
    obtain ⟨k, rfl⟩ := exists_kind_of_mem_legalKinds kind hk
    rw [serveRequest_legal, transact_of_some (checkRequest_of_getsReason hr)]
  · obtain rfl := (getsReason_of_illegal_kind hk).1 hr
    exact serveRequest_illegal hk s

/-- A request that fails no check gets OKAY, or is a read of an unwritten cell. -/
theorem serveRequest_of_no_reason {s : State} {h : Hrd} (hr : ∀ r, ¬ getsReason s h r) :
    Answers (serveRequest h s) := by
  by_cases hk : h.kind ∈ legalKinds
  · obtain ⟨kind, a, v⟩ := h
    obtain ⟨k, rfl⟩ := exists_kind_of_mem_legalKinds kind hk
    have hc : checkRequest s k a = none :=
      Option.eq_none_iff_forall_ne_some.2 fun r hc => hr r (getsReason_of_checkRequest hc)
    rw [serveRequest_legal, transact_of_none hc]
    exact performKind_answers hc v
  · exact absurd hk (hr .illegalKind)

/-! ### The frame memory requests by their width (40_host_transactions.md R108 to R110) -/

/-- The model's kind of an OUT read of this width. -/
def outReadOf : Width → Kind
  | .byte => .outReadB
  | .half => .outReadH
  | .word => .outReadW

@[simp] theorem outReadOf_size (w : Width) : (outReadOf w).size = w.bytes := by cases w <;> rfl
@[simp] theorem outReadOf_space (w : Width) : (outReadOf w).space = .out := by cases w <;> rfl
@[simp] theorem outReadOf_ne_regWrite (w : Width) : outReadOf w ≠ .regWrite := by cases w <;> decide
@[simp] theorem interlocked_outReadOf (w : Width) (a : Word) : interlocked (outReadOf w) a = true := by cases w <;> rfl
@[simp] theorem inReadOf_bits (w : Width) : (inReadOf w).bits = inReadKind w := by cases w <;> rfl
@[simp] theorem inWriteOf_bits (w : Width) : (inWriteOf w).bits = inWriteKind w := by cases w <;> rfl
@[simp] theorem outReadOf_bits (w : Width) : (outReadOf w).bits = outReadKind w := by cases w <;> rfl

theorem exec_outRead (w : Width) (a : Word) (s : State) :
    exec (outRead w a) s = transact (outReadOf w) a (performOutRead a w.bytes) s := by cases w <;> rfl

section
variable {s : State} {w : Width} {a v : Word} {r : BusReason}

theorem exec_inRead_rejected (h : checkRequest s (inReadOf w) a = some r) :
    exec (inRead w a) s = .next (rejected s r (inReadKind w) a) := by
  rw [exec_inRead, transact_of_some h, inReadOf_bits]; rfl

theorem exec_inWrite_rejected (h : checkRequest s (inWriteOf w) a = some r) :
    exec (inWrite w a v) s = .next (rejected s r (inWriteKind w) a) := by
  rw [exec_inWrite, transact_of_some h, inWriteOf_bits]; rfl

theorem exec_outRead_rejected (h : checkRequest s (outReadOf w) a = some r) :
    exec (outRead w a) s = .next (rejected s r (outReadKind w) a) := by
  rw [exec_outRead, transact_of_some h, outReadOf_bits]; rfl

theorem exec_inWrite_outOfRange (h : a.toNat + w.bytes > inCap s.cfg.geom) :
    exec (inWrite w a v) s = .next (rejected s .outOfRange (inWriteKind w) a) :=
  exec_inWrite_rejected (checkRequest_outOfRange (by simpa using h))

theorem exec_inWrite_misaligned (hfit : a.toNat + w.bytes ≤ inCap s.cfg.geom) (halign : a.toNat % w.bytes ≠ 0) :
    exec (inWrite w a v) s = .next (rejected s .misaligned (inWriteKind w) a) :=
  exec_inWrite_rejected (checkRequest_misaligned (by simpa using hfit) (by simpa using halign))

theorem exec_inWrite_busy (hfit : a.toNat + w.bytes ≤ inCap s.cfg.geom) (halign : a.toNat % w.bytes = 0)
    (hb : s.status.busy = true) : exec (inWrite w a v) s = .next (rejected s .busy (inWriteKind w) a) :=
  exec_inWrite_rejected (checkRequest_busy (by simpa using hfit) (by simpa using halign) (by simp) hb (by simp))

theorem exec_outRead_outOfRange (h : a.toNat + w.bytes > outCap s.cfg.geom) :
    exec (outRead w a) s = .next (rejected s .outOfRange (outReadKind w) a) :=
  exec_outRead_rejected (checkRequest_outOfRange (by simpa using h))

theorem exec_outRead_misaligned (hfit : a.toNat + w.bytes ≤ outCap s.cfg.geom) (halign : a.toNat % w.bytes ≠ 0) :
    exec (outRead w a) s = .next (rejected s .misaligned (outReadKind w) a) :=
  exec_outRead_rejected (checkRequest_misaligned (by simpa using hfit) (by simpa using halign))

theorem exec_outRead_busy (hfit : a.toNat + w.bytes ≤ outCap s.cfg.geom) (halign : a.toNat % w.bytes = 0)
    (hb : s.status.busy = true) : exec (outRead w a) s = .next (rejected s .busy (outReadKind w) a) :=
  exec_outRead_rejected (checkRequest_busy (by simpa using hfit) (by simpa using halign) (by simp) hb (by simp))

/-- An aligned IN read inside the memory stops at its lowest unwritten cell (20_memory.md R65). -/
theorem exec_inRead_unwritten {k : Nat} (hfit : a.toNat + w.bytes ≤ inCap s.cfg.geom)
    (halign : a.toNat % w.bytes = 0) (hk : k < w.bytes) (hnone : Memory.read s.inMem (a.toNat + k) = none)
    (hbelow : ∀ j, j < k → (Memory.read s.inMem (a.toNat + j)).isSome = true) :
    exec (inRead w a) s = .fault (.unwrittenRead .inp (a.toNat + k)) := by
  have hcheck : checkRequest s (inReadOf w) a = none :=
    checkRequest_eq_none.2 ⟨by simpa using hfit, by simpa using halign, by simp, by simp⟩
  rw [exec_inRead, transact_of_none hcheck, performInRead, memRead_first hk hnone hbelow]

section
variable (hfit : a.toNat + w.bytes ≤ outCap s.cfg.geom) (halign : a.toNat % w.bytes = 0)
  (idle : s.status.busy = false)
include hfit halign idle

/-- An aligned OUT read inside the memory passes its checks while BUSY = 0. -/
theorem checkRequest_outRead_idle : checkRequest s (outReadOf w) a = none :=
  checkRequest_eq_none.2 ⟨by simpa using hfit, by simpa using halign, by simp, by simp [idle]⟩

theorem exec_outRead_written {bytes : Nat → Byte}
    (hcells : ∀ k, k < w.bytes → Memory.read s.outMem (a.toNat + k) = some (bytes k)) :
    exec (outRead w a) s = .next (okay (littleEndian ((List.range w.bytes).map bytes)) s) := by
  rw [exec_outRead, transact_of_none (checkRequest_outRead_idle hfit halign idle), performOutRead, memRead_ok hcells]

theorem exec_outRead_unwritten {k : Nat} (hk : k < w.bytes) (hnone : Memory.read s.outMem (a.toNat + k) = none)
    (hbelow : ∀ j, j < k → (Memory.read s.outMem (a.toNat + j)).isSome = true) :
    exec (outRead w a) s = .fault (.unwrittenRead .out (a.toNat + k)) := by
  rw [exec_outRead, transact_of_none (checkRequest_outRead_idle hfit halign idle), performOutRead,
    memRead_first hk hnone hbelow]

end
end

/-- The value an access answers, in the words of the statements. -/
theorem littleEndian_eq_wordOf (bytes : Nat → Byte) (w : Width) :
    littleEndian ((List.range w.bytes).map bytes) = wordOf bytes w.bytes := littleEndian_range bytes (Width.bytes_le w)

theorem byteLane_eq_lane (v : Word) (k : Nat) : byteLane v k = lane v k :=
  BitVec.eq_of_toNat_eq (by rw [byteLane_toNat, lane, BitVec.toNat_ofNat])

/-! ### What an instruction leaves unchanged -/

section
variable {s t : State} {i : Instr} (h : ExecEffect s i t)
include h

theorem ExecEffect.inputs_eq : t.inputs = s.inputs := by cases h <;> rfl

theorem ExecEffect.outMem_eq : t.outMem = s.outMem := by cases h <;> rfl

/-- IN is written by an IN_WRITE alone, at the bytes it stores. -/
theorem ExecEffect.inMem_cases :
    t.inMem = s.inMem ∨ ∃ a n v, storedBytes i = some (a, n) ∧ t.inMem = memWrite s.inMem a n v := by
  cases h with
  | response | irqEn | inLen | start | clear | illegal => exact .inl rfl
  | store _ a v n _ _ hi => obtain ⟨rfl, rfl⟩ | ⟨rfl, rfl⟩ | ⟨rfl, rfl⟩ := hi <;> exact .inr ⟨_, _, v, rfl, rfl⟩

theorem ExecEffect.irqEn_eq (hi : ∀ v, i ≠ .regWrite 0x0C v) : t.irqEn = s.irqEn := by
  cases h with
  | irqEn v => exact absurd rfl (hi v)
  | _ => rfl

theorem ExecEffect.inLen_eq (hi : ∀ v, i ≠ .regWrite 0x10 v) : t.inLen = s.inLen := by
  cases h with
  | inLen v => exact absurd rfl (hi v)
  | _ => rfl

/-- STATUS and OUT_LEN are written by a CTRL write that is no NOP. -/
theorem ExecEffect.status_outLen_eq (hi : ¬ writesCtrl i ∨ i = .nop) : t.status = s.status ∧ t.outLen = s.outLen := by
  cases h with
  | response | irqEn | inLen | store => exact ⟨rfl, rfl⟩
  | start _ _ _ _ hw => obtain rfl | rfl | rfl | rfl := hw <;> simp [writesCtrl] at hi
  | clear _ _ hw => obtain rfl | rfl := hw <;> simp [writesCtrl] at hi
  | illegal => simp [writesCtrl] at hi

/-- OUT_LEN is written by a START alone, in either spelling. -/
theorem ExecEffect.outLen_eq (havg : i ≠ .startAvg) (hskip : i ≠ .startSkip)
    (hword : ∀ w : Word, i = .regWrite 0x04 w → w.toNat ≠ 1 ∧ w.toNat ≠ 2) : t.outLen = s.outLen := by
  cases h with
  | response | irqEn | inLen | store | clear | illegal => rfl
  | start _ _ _ _ hw =>
    obtain rfl | rfl | rfl | rfl := hw
    · exact absurd rfl havg
    · exact absurd rfl hskip
    · exact absurd rfl (hword _ rfl).1
    · exact absurd rfl (hword _ rfl).2

end

/-- A byte of IN outside those an instruction stores is as before. -/
theorem read_inMem_of_exec {i : Instr} {s t : State} (h : exec i s = .next t) {x : Nat}
    (hx : ∀ a n, storedBytes i = some (a, n) → x < a ∨ a + n ≤ x) : Memory.read t.inMem x = Memory.read s.inMem x := by
  obtain hsame | ⟨a, n, v, hi, hwrite⟩ := (exec_effect h).inMem_cases
  · rw [hsame]
  · have houtside := hx a n hi
    rw [hwrite, Memory.read_memWrite, if_neg (by omega)]

/-- A length that is not the frame's fails Validate's first check (42_plane_splitter.md R148). -/
theorem validate_of_wrong_length {c : Config} {len : Word} (h : len.toNat ≠ inFrameBytes c.geom) :
    validate c.geom len = some (.inputSize, .none) := by
  have hsize : inputSizeOk c.geom len = false := Bool.eq_false_iff.2 fun hok => h (inputSizeOk_iff.1 hok)
  simp [validate, hsize]

end Sys2Proof.Machine
end

section
/-! PROOFS of the statements about 40_host_transactions.md: the service of a request (R100, R111, R112), the BUSY
interlock (R101), the register requests (R102 to R107) and the frame memory requests (R108 to R110). -/

namespace Sys2Proof

open Sys2Proof.Machine Sys2Proof.Claims

/-- Settles O16: a step serves the request, which ends in the bus error of its first failing check, or is answered. -/
theorem busErrorIsFirstFailingCheck : Obligations.BusErrorIsFirstFailingCheck := by
  intro s h rest hi
  rw [step_request hi]
  exact ⟨fun reason hr => ⟨serveRequest_of_getsReason hr, rfl, rfl⟩, fun hnone => serveRequest_of_no_reason hnone⟩

/-- Settles O17: a request that has a first failing check records that one, and a request that has none is answered
without a bus error. -/
theorem busErrorReasonsExclusive : Obligations.BusErrorReasonsExclusive := by
  intro s h r
  refine ⟨fun k hk => ?_, fun ⟨t, info, hs, hresp, hinfo⟩ => ?_, fun hr => ?_⟩
  · obtain ⟨kind, a, v⟩ := h
    obtain rfl : k.bits = kind := hk
    exact checkRequest_eq_some
  · by_cases hany : ∃ r', getsReason s h r'
    · obtain ⟨r', hr'⟩ := hany
      rw [serveRequest_of_getsReason hr'] at hs
      cases hs
      cases hresp
      exact hinfo ▸ hr'
    · obtain ⟨t', v, ht', hokay⟩ | ⟨m, a, hfault⟩ := serveRequest_of_no_reason (not_exists.1 hany)
      · rw [ht'] at hs
        cases hs
        rw [hokay] at hresp
        cases hresp
      · rw [hfault] at hs
        cases hs
  · exact ⟨_, _, serveRequest_of_getsReason hr, rfl, rfl⟩

/-- Settles O19: the interlocked requests fail the Busy check, which comes after the others; the rest pass their
checks as they do while idle. -/
theorem busyInterlock : Obligations.BusyInterlock := by
  intro s hb
  refine ⟨fun v => exec_regWrite_busy hb v (.inl rfl), fun i hi => ?_, fun v => exec_regWrite_busy hb v (.inr rfl),
    fun w a v hfit halign => exec_inWrite_busy hfit halign hb,
    fun w a hfit halign => exec_outRead_busy hfit halign hb, fun a halign hle => ?_, exec_regWrite_irqEn s,
    fun w a hfit halign hcells => ?_, fun a v => exec_regWrite_readOnly v,
    fun w a v => exec_inWrite_outOfRange, fun w a v => exec_inWrite_misaligned, fun w a => exec_outRead_outOfRange,
    fun w a => exec_outRead_misaligned⟩
  · simp only [List.mem_cons, List.not_mem_nil, or_false] at hi
    obtain rfl | rfl | rfl | rfl := hi <;> exact writeCtrl_busy hb _
  · obtain ⟨r, hr⟩ := regAt_isSome (by omega) halign
    obtain rfl := eq_offset_of_regAt hr
    exact ⟨_, exec_regRead_offset s r⟩
  · have hread : ∀ k, k < w.bytes → Memory.read s.inMem (a.toNat + k) =
        some ((Memory.read s.inMem (a.toNat + k)).getD 0) := fun k hk => by
      obtain ⟨b, hbyte⟩ := Option.isSome_iff_exists.1 (hcells k hk)
      rw [hbyte, Option.getD_some]
    exact ⟨_, exec_inRead_written hfit halign hread⟩

/-- Settles O21: each offset is a register's, whose value is the rule's; any other fails the address check. -/
theorem regReadReturnsRegister : Obligations.RegReadReturnsRegister := by
  intro s g
  have houtW : outW g < 65536 := Nat.lt_of_le_of_lt (Nat.div_le_self _ _) (inW_lt s.cfg)
  refine ⟨exec_regRead_offset s .id, exec_regRead_offset s .ctrl, exec_regRead_offset s .status, ?_,
    exec_regRead_offset s .inLen, exec_regRead_offset s .outLen, exec_regRead_pair (r := .inDim) (inW_lt s.cfg) rfl,
    exec_regRead_pair (r := .factor) (fx_lt s.cfg) rfl, exec_regRead_pair (r := .outDim) houtW rfl,
    exec_regRead_offset s .inSize, exec_regRead_offset s .outSize, fun a hrange => ?_, fun a hle halign => ?_⟩
  · rw [← readReg_irqEn]
    exact exec_regRead_offset s .irqEn
  · have hrange' : a.toNat + 4 > 0x2C := by omega
    exact transact_of_some (checkRequest_outOfRange hrange')
  · have hfit : a.toNat + 4 ≤ 0x2C := by omega
    exact transact_of_some (checkRequest_misaligned hfit halign)

/-- Settles O31: an access that passes its checks answers its cells, or stops at the lowest unwritten one. -/
theorem inReadReturnsBytes : Obligations.InReadReturnsBytes := by
  intro s w a
  refine ⟨fun hfit halign => ⟨fun bytes hcells => ?_, fun k => exec_inRead_unwritten hfit halign⟩,
    fun hrange => exec_inRead_rejected (checkRequest_outOfRange (by simpa using hrange)),
    fun hfit halign => exec_inRead_rejected (checkRequest_misaligned (by simpa using hfit) (by simpa using halign))⟩
  rw [exec_inRead_written hfit halign hcells, littleEndian_eq_wordOf]
  rfl

/-- Settles O32: an access that passes its checks stores the byte lanes of WDATA and nothing else. -/
theorem inWriteStoresBytes : Obligations.InWriteStoresBytes := by
  intro s w a v
  refine ⟨fun hfit halign idle => ⟨_, exec_inWrite_idle v hfit halign idle, fun k hk => ?_, fun x hx => ?_⟩,
    exec_inWrite_outOfRange, exec_inWrite_misaligned, exec_inWrite_busy⟩
  · rw [Memory.read_memWrite, if_pos (by omega), Nat.add_sub_cancel_left, byteLane_eq_lane]
  · rw [Memory.read_memWrite, if_neg (by omega)]

/-- Settles O34: as O31 for OUT, whose reads are interlocked. -/
theorem outReadReturnsBytes : Obligations.OutReadReturnsBytes := by
  intro s w a
  refine ⟨fun hfit halign idle => ⟨fun bytes hcells => ?_, fun k => exec_outRead_unwritten hfit halign idle⟩,
    exec_outRead_outOfRange, exec_outRead_misaligned, exec_outRead_busy⟩
  rw [exec_outRead_written hfit halign idle hcells, littleEndian_eq_wordOf]
  rfl

/-- Settles O35: each field is changed by one effect of exec, whose instruction the clause excludes. -/
theorem instructionFrame : Obligations.InstructionFrame := by
  intro i s t h
  have he := exec_effect h
  refine ⟨he.cfg_eq, he.inputs_eq, fun x => by rw [he.outMem_eq], ?_, he.irqEn_eq, he.inLen_eq,
    fun hi => he.status_outLen_eq (.inl hi), fun hi => he.status_outLen_eq (.inr hi), fun hi => ?_,
    fun w hi h1 h2 => ?_⟩
  · split
    · next a n hst =>
      exact fun x hx => read_inMem_of_exec h fun a' n' hst' => by rw [hst] at hst'; cases hst'; exact hx
    · next hst =>
      exact fun x => read_inMem_of_exec h fun a' n' hst' => by rw [hst] at hst'; cases hst'
  · subst hi
    exact he.outLen_eq nofun nofun nofun
  · subst hi
    exact he.outLen_eq nofun nofun fun w' hw => by cases hw; exact ⟨h1, h2⟩

/-- Settles O13: the request in front is served; an encoded instruction decodes to itself. -/
theorem stepRunsDecodedInstruction : Obligations.StepRunsDecodedInstruction :=
  ⟨fun _ _ _ _ hi hdec => (step_request hi).trans (serveRequest_of_decode hdec _),
    fun s _ hwf => (step_request rfl).trans (serveRequest_of_decode (decode_encode hwf) s)⟩

/-- Settles O18: the two lists divide the 32 KIND values, and a KIND outside the table is refused unlooked at. -/
theorem illegalKindsRejected : Obligations.IllegalKindsRejected := by
  have hsplit : ∀ k : BitVec 5, k ∈ illegalKinds ↔ k ∉ legalKinds := by decide
  exact ⟨rfl, hsplit, fun s k addr wdata hk => serveRequest_illegal (h := ⟨k, addr, wdata⟩) ((hsplit k).1 hk) s⟩

/-- Settles O22: the write is not interlocked, and the read returns the one bit it stored. -/
theorem irqEnWrite : Obligations.IrqEnWrite := by
  refine ⟨fun s v => ⟨exec_regWrite_irqEn s v, rfl⟩, fun s t h => ?_⟩
  rw [exec_regWrite_irqEn] at h
  cases h
  exact ⟨rfl, exec_regRead_offset _ .irqEn⟩

/-- Settles O23: the write stores any value while idle; a length above IN_CAP is not the frame's. -/
theorem inLenWrite : Obligations.InLenWrite := by
  intro s v
  refine ⟨fun idle => ⟨exec_regWrite_inLen v idle, exec_regRead_offset _ .inLen⟩,
    fun hb => exec_regWrite_busy hb v (.inr rfl), fun hb hlen => ?_⟩
  rw [engineStep_busy hb, operation, validate_of_wrong_length (Nat.ne_of_gt hlen)]
  rfl

/-- Settles O24: the ReadOnly check comes before the interlock. -/
theorem readOnlyRegisterWrite : Obligations.ReadOnlyRegisterWrite := fun _ _ v => exec_regWrite_readOnly v

end Sys2Proof
end

section
/-! SUPPORT. The facts the statements about 41_commands.md are put together from: a command written to CTRL (R120,
R126), an operation whose frame is invalid (R123, R127), and the run of an operation in flight to its end (R130). -/

namespace Sys2Proof.Machine

open Sys2Proof.Claims

/-! ### Commands (41_commands.md R120 to R126) -/

/-- A REG_WRITE to CTRL runs the command its word names (41_commands.md R120). -/
theorem exec_regWrite_ctrl (w : Word) (s : State) : exec (.regWrite 0x04 w) s = writeCtrl (command w) s := rfl

/-- A word that names no command runs the illegal one (41_commands.md R126). -/
theorem command_illegal {w : Word} (h0 : w ≠ 0) (h1 : w ≠ 1) (h2 : w ≠ 2) (h3 : w ≠ 3) (s : State) :
    command w s = commandIllegal s := by
  rw [command, if_neg h0, if_neg h1, if_neg h2, if_neg h3]

theorem exec_regWrite_ctrl_illegal {s : State} {w : Word} (idle : s.status.busy = false) (h0 : w ≠ 0) (h1 : w ≠ 1)
    (h2 : w ≠ 2) (h3 : w ≠ 3) : exec (.regWrite 0x04 w) s = .next (okay 0 (commandIllegal s)) := by
  rw [exec_regWrite_ctrl, writeCtrl_idle idle, command_illegal h0 h1 h2 h3]

/-! ### Validation of an operation (41_commands.md R127, 42_plane_splitter.md R148) -/

/-- Validate passes exactly for a valid frame. -/
theorem validate_eq_none_iff_validFrame {s : State} : validate s.cfg.geom s.inLen = none ↔ validFrame s := by
  rw [validate_eq_none, inputSizeOk_iff, formatOk_iff, lumaDivOk_iff, chromaDivOk_iff]
  rfl

theorem operation_of_validate_some {s : State} {code : ErrCode} {plane : ErrPlane}
    (h : validate s.cfg.geom s.inLen = some (code, plane)) : operation s = .next (opError code plane s) := by
  rw [operation, h]

/-- The engine step after a START reports the validation failure of the frame declared (41_commands.md R123). -/
theorem engineStep_start_of_validate_some {s : State} {m : Mode} {code : ErrCode} {plane : ErrPlane}
    (h : validate s.cfg.geom s.inLen = some (code, plane)) :
    engineStep (okay 0 (commandStart m s)) =
      .next { okay 0 (commandStart m s) with status := failedStatus code plane m } :=
  (engineStep_busy rfl).trans (operation_of_validate_some h)

/-- No legal frame is empty (00_scope.md R7). -/
theorem inFrameBytes_pos (c : Config) : 0 < inFrameBytes c.geom := by
  obtain ⟨-, -, -, hw, -, hh, -⟩ := c.legal
  have hmul : 2 * 2 ≤ c.geom.inW * c.geom.inH := Nat.mul_le_mul hw hh
  unfold inFrameBytes
  omega

/-! ### The run of an operation in flight (41_commands.md R130) -/

/-- The first k steps end the operation in flight, or end the run in the model fault of an unwritten read. -/
def EndsOperation (k : Nat) (s : State) : Prop :=
  (∃ t : State, Host.Core.run Sys2Proof.core k s = .next t ∧ t.status.busy = false) ∨
    ∃ m a, Host.Core.run Sys2Proof.core k s = .fault (Fault.unwrittenRead m a)

theorem endsOperation_zero {s : State} (idle : s.status.busy = false) : EndsOperation 0 s := .inl ⟨s, rfl, idle⟩

theorem endsOperation_of_fault {s : State} {f : Fault} (h : step s = .fault f) (k : Nat) : EndsOperation (k + 1) s := by
  obtain ⟨m, a⟩ := f
  exact .inr ⟨m, a, run_of_fault h k⟩

theorem endsOperation_of_next {s t : State} {k : Nat} (h : step s = .next t) (ht : EndsOperation k t) :
    EndsOperation (k + 1) s := by
  rw [EndsOperation, run_of_next h]
  exact ht

/-- A step that leaves BUSY at 1 has served a request, so one fewer entry is pending. -/
theorem inputs_length_lt_of_busy {s t : State} (hb : s.status.busy = true) (h : step s = .next t)
    (hbt : t.status.busy = true) : t.inputs.length < s.inputs.length := by
  obtain ⟨-, hrequest⟩ := busyWindowFreezesOperation s t hb h
  obtain ⟨r, rest, hi⟩ := hrequest hbt
  obtain ⟨-, hrest⟩ := step_request_sameOperation hb hi h
  simp [hi, hrest]

/-- An operation in flight ends, by induction on the number of pending entries. -/
theorem exists_endsOperation (s : State) (hb : s.status.busy = true) :
    ∃ k, k ≤ s.inputs.length + 1 ∧ EndsOperation k s := by
  cases h : step s with
  | refused q => exact absurd h (step_not_refused s q)
  | fault f => exact ⟨1, by omega, endsOperation_of_fault h 0⟩
  | next t =>
    cases hbt : t.status.busy with
    | false => exact ⟨1, by omega, endsOperation_of_next h (endsOperation_zero hbt)⟩
    | true =>
      have hlt := inputs_length_lt_of_busy hb h hbt
      obtain ⟨k, hk, hend⟩ := exists_endsOperation t hbt
      exact ⟨k + 1, by omega, endsOperation_of_next h hend⟩
termination_by s.inputs.length

end Sys2Proof.Machine
end

section
/-! PROOFS of the statements about 41_commands.md: the commands written to CTRL (R120 to R126), and the engine step
with its completion (R127 to R130). -/

namespace Sys2Proof

open Sys2Proof.Machine Sys2Proof.Claims

/-- Settles O54: an operation fails validation and reports that, or packs a valid frame and succeeds. -/
theorem completionReportsValidation : Obligations.CompletionReportsValidation := by
  intro s t hb h
  rw [engineStep_busy hb] at h
  obtain ⟨code, plane, hv, rfl⟩ | ⟨hv, -, f, -, -, rfl⟩ := operation_next h
  · have hinvalid : ¬ validFrame s := fun hvalid => by simp [validate_of_validFrame hvalid] at hv
    have hcode : code ≠ .none := by
      obtain ⟨rfl, -⟩ | ⟨rfl, -⟩ := validate_some hv <;> decide
    exact ⟨⟨rfl, rfl⟩, rfl, rfl, rfl, rfl, iff_of_false (fun ⟨_, herror, _⟩ => nomatch herror) hinvalid,
      fun _ => ⟨rfl, rfl, hcode⟩⟩
  · have hvalid := validate_eq_none_iff_validFrame.1 hv
    exact ⟨⟨rfl, rfl⟩, rfl, rfl, rfl, rfl, iff_of_true ⟨rfl, rfl, rfl⟩ hvalid, fun hinvalid => absurd hvalid hinvalid⟩

/-- Settles O59: each step that leaves BUSY at 1 takes one of the pending entries, and the engine moves once none
is left. -/
theorem busyEventuallyEnds : Obligations.BusyEventuallyEnds := exists_endsOperation

/-- Settles O14: both turns are the engine step, which looks at BUSY. -/
theorem engineTurns : Obligations.EngineTurns := by
  refine ⟨fun s rest hi => ?_, fun s hi => ?_⟩
  · have hturn : step s = engineStep { s with inputs := rest } := by rw [step, hi]
    rw [hturn]
    exact ⟨fun hb => engineStep_busy hb, fun idle => engineStep_idle idle⟩
  · have hturn : step s = engineStep s := by rw [step, hi]
    rw [hturn]
    exact ⟨engineStep_busy, engineStep_idle⟩

/-- Settles O25: the command words are those of the four instructions, and every other word is illegal. -/
theorem ctrlWriteRunsCommand : Obligations.CtrlWriteRunsCommand := fun _ =>
  ⟨rfl, rfl, rfl, rfl, fun _ h0 h1 h2 h3 idle => exec_regWrite_ctrl_illegal idle h0 h1 h2 h3,
    fun w hb => exec_regWrite_busy hb w (.inl rfl)⟩

/-- Settles O26: an idle machine runs the command, which writes nothing; a busy one refuses it. -/
theorem nopCompletes : Obligations.NopCompletes := fun _ =>
  ⟨fun idle => writeCtrl_idle idle, fun hb => writeCtrl_busy hb _⟩

/-- Settles O27: the START leaves BUSY = 1, so the engine step is OPERATION, which validates; a length of 0 is no
frame's. -/
theorem startAvgCompletes : Obligations.StartAvgCompletes := by
  intro s idle
  have hword : (Status.started .average).word = 0x00000101 := by decide
  refine ⟨_, writeCtrl_idle idle, rfl, hword, rfl, rfl, engineStep_busy rfl, fun hlen => ?_,
    fun _ _ => engineStep_start_of_validate_some⟩
  have hwrong : s.inLen.toNat ≠ inFrameBytes s.cfg.geom := by
    rw [hlen]
    exact (inFrameBytes_pos s.cfg).ne
  exact engineStep_start_of_validate_some (validate_of_wrong_length hwrong)

/-- Settles O28: as O27, for Skip mode. -/
theorem startSkipCompletes : Obligations.StartSkipCompletes := fun _ idle =>
  have hword : (Status.started .skip).word = 0x00000201 := by decide
  ⟨_, writeCtrl_idle idle, rfl, hword, rfl, rfl, engineStep_busy rfl, fun _ _ => engineStep_start_of_validate_some⟩

/-- Settles O29: the command sets every field of STATUS to 0 and writes nothing else. -/
theorem clearStatusCompletes : Obligations.ClearStatusCompletes := fun _ idle =>
  have hword : Status.reset.word = 0x00000000 := by decide
  ⟨_, writeCtrl_idle idle, rfl, hword, rfl⟩

/-- Settles O30: the illegal command completes with DONE = 1, so `irq` is IRQ_EN.EN. -/
theorem illegalCommandReportsUsage : Obligations.IllegalCommandReportsUsage := fun s _ idle h0 h1 h2 h3 =>
  have hword : (failedStatus .usage .none .none).word = 0x00000016 := by decide
  ⟨_, exec_regWrite_ctrl_illegal idle h0 h1 h2 h3, rfl, hword, Bool.true_and s.irqEn⟩

end Sys2Proof
end

section
/-! SUPPORT. The facts the statements about 42_plane_splitter.md are put together from: which check of Validate fails
first (R148), and the cells of IN that the luma and ChromaSample views read (R142 to R144). -/

namespace Sys2Proof.Machine

open Sys2Proof.Claims

/-! ### The first failing check (42_plane_splitter.md R148) -/

theorem validate_eq_format {g : Geometry} {len : Word} :
    validate g len = some (.shapeDivisibility, .format) ↔ inputSizeOk g len = true ∧ formatOk g = false := by
  unfold validate
  split_ifs <;> simp_all

theorem validate_eq_luma {g : Geometry} {len : Word} :
    validate g len = some (.shapeDivisibility, .luma) ↔
      inputSizeOk g len = true ∧ formatOk g = true ∧ lumaDivOk g = false := by
  unfold validate
  split_ifs <;> simp_all

theorem validate_eq_chroma {g : Geometry} {len : Word} :
    validate g len = some (.shapeDivisibility, .chroma) ↔
      inputSizeOk g len = true ∧ formatOk g = true ∧ lumaDivOk g = true ∧ chromaDivOk g = false := by
  unfold validate
  split_ifs <;> simp_all

theorem formatOk_eq_false {g : Geometry} : formatOk g = false ↔ ¬ formatHolds g :=
  Bool.eq_false_iff.trans (not_congr formatOk_iff)

theorem lumaDivOk_eq_false {g : Geometry} : lumaDivOk g = false ↔ ¬ lumaHolds g :=
  Bool.eq_false_iff.trans (not_congr lumaDivOk_iff)

theorem chromaDivOk_eq_false {g : Geometry} : chromaDivOk g = false ↔ ¬ chromaHolds g :=
  Bool.eq_false_iff.trans (not_congr chromaDivOk_iff)

/-- The engine step of an operation whose frame is invalid reports the failure in STATUS, and writes nothing else. -/
theorem engineStep_of_validate_some {s : State} {code : ErrCode} {plane : ErrPlane} (hb : s.status.busy = true)
    (h : validate s.cfg.geom s.inLen = some (code, plane)) :
    engineStep s = .next { s with status := failedStatus code plane s.status.mode } :=
  (engineStep_busy hb).trans (operation_of_validate_some h)

/-! ### The cells the views read (42_plane_splitter.md R142 to R144) -/

/-- A cell of a row-major grid lies at one row and one column: its quotient and its remainder by the width. -/
theorem existsUnique_rowMajor {w h a : Nat} (ha : a < w * h) :
    ∃! p : Nat × Nat, p.1 < h ∧ p.2 < w ∧ p.1 * w + p.2 = a := by
  have hw : 0 < w := Nat.pos_of_lt_mul_right ha
  refine ⟨(a / w, a % w), ⟨Nat.div_lt_of_lt_mul ha, Nat.mod_lt a hw, Nat.div_add_mod' a w⟩, ?_⟩
  rintro ⟨r, c⟩ ⟨-, hc : c < w, hindex : r * w + c = a⟩
  have hsum : c + w * r = a := by rw [← hindex, Nat.mul_comm w, Nat.add_comm]
  obtain ⟨hrow, hcol⟩ := (Nat.div_mod_unique hw).2 ⟨hsum, hc⟩
  exact Prod.ext hrow.symm hcol.symm

/-- A byte of a grid whose rows are w interleaved pairs is one lane of one pair: the lane is the column's parity. -/
theorem existsUnique_interleaved {w h a : Nat} (ha : a < 2 * w * h) :
    ∃! p : Nat × Nat × Nat, p.1 < 2 ∧ p.2.1 < h ∧ p.2.2 < w ∧ p.2.1 * (2 * w) + (2 * p.2.2 + p.1) = a := by
  obtain ⟨⟨r, b⟩, ⟨hr, hb, hindex⟩, hunique⟩ := existsUnique_rowMajor ha
  have hpair : 2 * (b / 2) + b % 2 = b := Nat.div_add_mod b 2
  refine ⟨(b % 2, r, b / 2), ⟨Nat.mod_lt b two_pos, hr, Nat.div_lt_of_lt_mul hb, by rw [hpair, hindex]⟩, ?_⟩
  rintro ⟨ch, r', cc⟩ ⟨hch : ch < 2, hr', hcc : cc < w, hindex'⟩
  have hcol : 2 * cc + ch < 2 * w := by omega
  obtain ⟨rfl, rfl⟩ := Prod.mk.inj (hunique (r', 2 * cc + ch) ⟨hr', hcol, hindex'⟩)
  have hlane : (2 * cc + ch) % 2 = ch := by omega
  have hdiv : (2 * cc + ch) / 2 = cc := by omega
  rw [hlane, hdiv]

/-- The luma view reads every cell of the luma plane at one position. -/
theorem existsUnique_lumaAddress {g : Geometry} {a : Nat} (ha : a < inYBytes g) :
    ∃! p : Nat × Nat, p.1 < g.inH ∧ p.2 < g.inW ∧ lumaAddress g p.1 p.2 = a := existsUnique_rowMajor ha

/-- The ChromaSample view reads every cell after the luma plane at one position of one channel. -/
theorem Divides.existsUnique_chromaAddress {g : Geometry} (h : Divides g) {a : Nat} (hlo : inYBytes g ≤ a)
    (hhi : a < inFrameBytes g) :
    ∃! p : Nat × Nat × Nat, p.1 < 2 ∧ p.2.1 < chH g ∧ p.2.2 < chW g ∧
      chromaAddress g p.2.1 (2 * p.2.2 + p.1) = a := by
  have hw : g.inW = 2 * chW g := by rw [h.inW_eq, h.chW_eq]
  have hoffset : ∀ rc b, chromaAddress g rc b = a ↔ rc * (2 * chW g) + b = a - inYBytes g := fun rc b => by
    rw [chromaAddress, chStride, ← hw]
    omega
  have hinside : a - inYBytes g < 2 * chW g * chH g := by
    rw [h.inFrameBytes_eq, hw, Nat.mul_comm (chH g)] at hhi
    omega
  simpa only [hoffset] using existsUnique_interleaved hinside

end Sys2Proof.Machine
end

section
/-! PROOFS of the statements about 42_plane_splitter.md: the order of Validate's checks (R148), and what holds of the
geometry once they have passed (R149). -/

namespace Sys2Proof

open Sys2Proof.Machine Sys2Proof.Claims

/-- Settles O41: a failing Validate completes the operation with its error, and each clause names the check that is
the first to fail. -/
theorem validationFailureRecorded : Obligations.ValidationFailureRecorded := by
  intro s hb g
  have recorded {code plane} := engineStep_of_validate_some (code := code) (plane := plane) hb
  refine ⟨fun hsize => recorded (validate_of_wrong_length hsize), fun hsize hformat => recorded ?_,
    fun hsize hformat hluma => recorded ?_, fun hsize hformat hluma hchroma => recorded ?_,
    validate_eq_none_iff_validFrame.symm⟩
  · exact validate_eq_format.2 ⟨inputSizeOk_iff.2 hsize, formatOk_eq_false.2 hformat⟩
  · exact validate_eq_luma.2 ⟨inputSizeOk_iff.2 hsize, formatOk_iff.2 hformat, lumaDivOk_eq_false.2 hluma⟩
  · exact validate_eq_chroma.2 ⟨inputSizeOk_iff.2 hsize, formatOk_iff.2 hformat, lumaDivOk_iff.2 hluma,
      chromaDivOk_eq_false.2 hchroma⟩

/-- Settles O44: a valid frame's dimensions are multiples of the output's chroma grid, and the views are row-major
grids that follow each other in IN. -/
theorem validGeometryFacts : Obligations.ValidGeometryFacts := by
  intro s hvalid g
  have h : Divides g := divides_of_validate (validate_of_validFrame hvalid)
  exact ⟨h.inFrameBytes_eq, fun _ => existsUnique_lumaAddress, fun _ => h.existsUnique_chromaAddress,
    h.outH_mul, h.outW_mul, h.chH_eq.symm, h.chW_eq.symm, h.outH_eq.symm, h.outW_eq.symm, h.outFrameBytes_eq⟩

/-- Settles O45: with even dimensions the luma grid is twice the chroma grid in both axes, and a plane is reported
exactly when its check is the first to fail. -/
theorem chromaCheckImpliesLumaCheck : Obligations.ChromaCheckImpliesLumaCheck := by
  refine ⟨fun h w fy fx => by simp [blockDiv], fun _ => rfl,
    fun c hformat => ⟨fun hchroma => ?_, fun len hsize => ?_⟩⟩
  · obtain ⟨hfx, hfy, -⟩ := c.legal
    exact (divides_of_checks hfx hfy hformat hchroma).lumaDivOk
  · rw [validate_eq_luma, validate_eq_chroma]
    simp only [hsize, hformat, true_and, and_self]

end Sys2Proof
end

section
/-! SUPPORT. The facts the statements about 43_average_reducer.md are put together from: the average of a block that
is read (R161 to R164), the laws of the rounding divide (R168 to R170), and the byte of OUT that each output sample
of an operation becomes (R165, R166; 45_output_packer.md R195, R196). -/

namespace Sys2Proof.Machine

open Sys2Proof.Claims

/-! ### The rounding divide (43_average_reducer.md R163, R168 to R170) -/

/-- The rounding divide of a legal sum, without its truncations (43_average_reducer.md R162, R164). -/
theorem toNat_roundDivide {n : Nat} {sum : Acc} (hpos : 1 ≤ n) (hn : n ≤ 256) (hsum : sum.toNat ≤ 255 * n) :
    (roundDivide n sum).toNat = (sum.toNat + n / 2) / n := by
  obtain ⟨hexact, hle⟩ := roundDivide_exact hpos hn hsum
  rw [BitVec.ofNat_toNat, BitVec.setWidth_eq] at hexact
  rw [hexact, BitVec.toNat_ofNat, Nat.mod_eq_of_lt (by omega)]

/-- Half of N goes into the numerator, where only its integer part counts (43_average_reducer.md R168). -/
theorem floor_mean_add_half (total : Nat) {n : Nat} (hpos : 1 ≤ n) :
    ⌊(total : ℚ) / n + 1 / 2⌋ = (((total + n / 2) / n : Nat) : ℤ) := by
  have hn : (n : ℚ) ≠ 0 := by positivity
  have hhalf : ⌊(n : ℚ) / 2⌋ = ((n / 2 : Nat) : ℤ) := by exact_mod_cast Rat.floor_natCast_div_natCast n 2
  calc ⌊(total : ℚ) / n + 1 / 2⌋ = ⌊((total : ℚ) + n / 2) / n⌋ := by congr 1; field_simp
    _ = (((total + n / 2) / n : Nat) : ℤ) := by
      rw [Int.floor_div_natCast, Int.floor_natCast_add, hhalf]
      norm_cast

theorem roundedMean_eq (g : Geometry) (total : Nat) :
    roundedMean g total = (total + blockN g / 2) / blockN g := rfl

/-- Totals between N * lo and N * hi have their rounded mean between lo and hi (43_average_reducer.md R170). -/
theorem roundedMean_mem_Icc {c : Config} {total lo hi : Nat} (hlo : blockN c.geom * lo ≤ total)
    (hhi : total ≤ blockN c.geom * hi) : lo ≤ roundedMean c.geom total ∧ roundedMean c.geom total ≤ hi := by
  have hpos := blockN_pos c
  rw [roundedMean_eq]
  constructor
  · rw [Nat.le_div_iff_mul_le hpos, Nat.mul_comm]
    omega
  · rw [← Nat.lt_succ_iff, Nat.div_lt_iff_lt_mul hpos, Nat.succ_mul, Nat.mul_comm]
    omega

/-! ### The average of a block that is read -/

/-- Every sample of the block at (r, col) is read, and f gives its value (43_average_reducer.md R160). -/
def BlockReads (g : Geometry) (p : Plane) (f : Nat → Nat → Byte) (r col : Nat) : Prop :=
  ∀ i j, i < g.fy → j < g.fx → p (r * g.fy + i) (col * g.fx + j) = .ok (f (r * g.fy + i) (col * g.fx + j))

theorem blockTotal_le {g : Geometry} {f : Nat → Nat → Byte} {r col b : Nat}
    (h : ∀ i j, i < g.fy → j < g.fx → (f (r * g.fy + i) (col * g.fx + j)).toNat ≤ b) :
    blockTotal g f r col ≤ blockN g * b :=
  gridSum_le (fun i j => f (r * g.fy + i) (col * g.fx + j)) b g.fy g.fx h

theorem le_blockTotal {g : Geometry} {f : Nat → Nat → Byte} {r col b : Nat}
    (h : ∀ i j, i < g.fy → j < g.fx → b ≤ (f (r * g.fy + i) (col * g.fx + j)).toNat) :
    blockN g * b ≤ blockTotal g f r col :=
  le_gridSum (fun i j => f (r * g.fy + i) (col * g.fx + j)) b g.fy g.fx h

theorem blockTotal_le_max (g : Geometry) (f : Nat → Nat → Byte) (r col : Nat) :
    blockTotal g f r col ≤ blockN g * 255 :=
  blockTotal_le fun _ _ _ _ => Nat.le_of_lt_succ (f _ _).isLt

theorem roundedMean_blockTotal_le (c : Config) (f : Nat → Nat → Byte) (r col : Nat) :
    roundedMean c.geom (blockTotal c.geom f r col) ≤ 255 :=
  (roundedMean_mem_Icc (lo := 0) (Nat.zero_le _) (blockTotal_le_max c.geom f r col)).2

/-- The average of a block fits its byte (43_average_reducer.md R164). -/
theorem toNat_roundedMean_blockTotal (c : Config) (f : Nat → Nat → Byte) (r col : Nat) :
    (BitVec.ofNat 8 (roundedMean c.geom (blockTotal c.geom f r col))).toNat =
      roundedMean c.geom (blockTotal c.geom f r col) :=
  Nat.mod_eq_of_lt (Nat.lt_succ_of_le (roundedMean_blockTotal_le c f r col))

section
variable {c : Config} {p : Plane} {f : Nat → Nat → Byte} {r col : Nat} (h : BlockReads c.geom p f r col)
include h

theorem BlockReads.blockSum_eq :
    blockSum p c.geom.fy c.geom.fx r col = .ok (BitVec.ofNat 16 (blockTotal c.geom f r col)) :=
  blockSum_ok (f := fun i j => f (r * c.geom.fy + i) (col * c.geom.fx + j)) h

theorem BlockReads.blockAvg_eq :
    blockAvg c.geom p r col = .ok (BitVec.ofNat 8 (roundedMean c.geom (blockTotal c.geom f r col))) :=
  blockAvg_ok (f := fun i j => f (r * c.geom.fy + i) (col * c.geom.fx + j)) h

end

/-! ### The reducer of a mode, one plane at a time -/

/-- What the reducer of a mode makes of one plane (41_commands.md R127, R129). -/
def reducePlane (m : Mode) (g : Geometry) (p : Plane) : Plane :=
  match m with
  | .average => blockAvg g p
  | .skip | .none => topLeft g p

/-- A frame is reduced plane by plane: no sample is made of two planes (43_average_reducer.md R166,
44_skip_reducer.md R181). -/
theorem reduceFrame_eq_reduceWith (m : Mode) (g : Geometry) (mem : Memory) :
    reduceFrame m g mem = reduceWith g (reducePlane m g (lumaView g mem)) (reducePlane m g (chromaView g mem 0))
      (reducePlane m g (chromaView g mem 1)) := by
  cases m <;> rfl

/-- An output sample depends on its own block alone, in either mode. -/
theorem reducePlane_congr {c : Config} {p q : Plane} {r col : Nat} (m : Mode)
    (h : ∀ i j, i < c.geom.fy → j < c.geom.fx →
      p (r * c.geom.fy + i) (col * c.geom.fx + j) = q (r * c.geom.fy + i) (col * c.geom.fx + j)) :
    reducePlane m c.geom p r col = reducePlane m c.geom q r col := by
  obtain ⟨hfx, hfy, -⟩ := c.legal
  cases m with
  | average => exact blockAvg_congr h
  | skip | none => exact h 0 0 hfy hfx

/-- Luma views of memories with the same luma bytes reduce alike. -/
theorem reducePlane_lumaView_congr {c : Config} {mem mem' : Memory} {r col : Nat} (m : Mode) (hg : Divides c.geom)
    (hr : r < outH c.geom) (hc : col < outW c.geom)
    (h : ∀ a, a < inYBytes c.geom → Memory.read mem a = Memory.read mem' a) :
    reducePlane m c.geom (lumaView c.geom mem) r col = reducePlane m c.geom (lumaView c.geom mem') r col :=
  reducePlane_congr m fun _ _ hi hj =>
    readCell_congr (h _ (lumaIndex_lt (hg.outH_mul ▸ blockIndex_lt hr hi) (hg.outW_mul ▸ blockIndex_lt hc hj)))

/-- Views of one chroma channel, in memories with the same bytes of that channel, reduce alike. -/
theorem reducePlane_chromaView_congr {c : Config} {mem mem' : Memory} {ch rc cc : Nat} (m : Mode)
    (hg : Divides c.geom) (hrc : rc < outChH c.geom) (hcc : cc < outChW c.geom)
    (h : ∀ y x, y < chH c.geom → x < chW c.geom →
      Memory.read mem (chromaAddr c.geom ch y x) = Memory.read mem' (chromaAddr c.geom ch y x)) :
    reducePlane m c.geom (chromaView c.geom mem ch) rc cc = reducePlane m c.geom (chromaView c.geom mem' ch) rc cc :=
  reducePlane_congr m fun _ _ hi hj =>
    readCell_congr (h _ _ (hg.chH_eq ▸ blockIndex_lt hrc hi) (hg.chW_eq ▸ blockIndex_lt hcc hj))

/-! ### The bytes of OUT after packing (45_output_packer.md R195, R196) -/

section
variable {g : Geometry} {y : Plane} {ch : Nat → Plane} {f : Reduced} (out : Memory)

/-- Output luma sample (r, c) is what OUT reads as at its place in the luma plane. -/
theorem read_pack_luma {u v : Plane} (h : reduceWith g y u v = .ok f) {r c : Nat} (hr : r < outH g)
    (hc : c < outW g) : Memory.read (pack g f out).mem (r * outW g + c) = (y r c).toOption := by
  obtain ⟨hf, hluma, -⟩ := reduceWith_eq_ok h
  obtain ⟨b, hb, hat⟩ := hluma r c hr hc
  have hin : r * outW g + c < outYBytes g := index_lt hr hc
  rw [pack_read hf, if_pos (by rw [hf.length_bytes]; omega), hf.bytes_luma hr hc, hat, hb]
  rfl

/-- Output sample (rc, cc) of chroma channel k is what OUT reads as at its place in the interleaved chroma plane. -/
theorem read_pack_chroma (h : reduceWith g y (ch 0) (ch 1) = .ok f) {rc cc k : Nat} (hrc : rc < outChH g)
    (hcc : cc < outChW g) (hk : k < 2) :
    Memory.read (pack g f out).mem (outYBytes g + rc * outChStride g + (2 * cc + k)) = (ch k rc cc).toOption := by
  obtain ⟨hf, -, hchroma⟩ := reduceWith_eq_ok h
  obtain ⟨ub, vb, hu, hv, hat⟩ := hchroma rc cc hrc hcc
  obtain ⟨row, hrow, hpair⟩ := Option.bind_eq_some_iff.1 hat
  have hb : 2 * cc + k < outChStride g := by rw [outChStride]; omega
  have hin : rc * outChStride g + (2 * cc + k) < outChStride g * outChH g := index_lt hrc hb
  rw [pack_read hf, if_pos (by rw [hf.length_bytes, Nat.mul_comm (outChH g)]; omega), hf.bytes_chroma hb, hrow,
    Option.bind_some]
  obtain ⟨hU, hV⟩ := getElem?_interleave row cc
  obtain rfl | rfl : k = 0 ∨ k = 1 := by omega
  · rw [Nat.add_zero, hU, hpair, hu]; rfl
  · rw [hV, hpair, hv]; rfl

/-- OUT beyond the frame is left as it was. -/
theorem read_pack_beyond (hg : Divides g) (hf : f.Shaped g) {a : Nat} (ha : outFrameBytes g ≤ a) :
    Memory.read (pack g f out).mem a = Memory.read out a := by
  rw [pack_read hf, if_neg (by rw [hf.length_bytes, ← hg.outFrameBytes_eq]; omega)]

/-- OUT inside the frame holds nothing of what it held before. -/
theorem read_pack_within (out' : Memory) (hg : Divides g) (hf : f.Shaped g) {a : Nat} (ha : a < outFrameBytes g) :
    Memory.read (pack g f out).mem a = Memory.read (pack g f out').mem a := by
  have hin : a < f.bytes.length := by rw [hf.length_bytes, ← hg.outFrameBytes_eq]; exact ha
  rw [pack_read hf, pack_read hf, if_pos hin, if_pos hin]

end

/-! ### The engine step on a valid frame (41_commands.md R127, R128) -/

/-- A valid frame that is reduced is packed, and the operation succeeds. -/
theorem engineStep_of_reduce_ok {s : State} {f : Reduced} (hb : s.status.busy = true)
    (hv : validate s.cfg.geom s.inLen = none) (h : reduceFrame s.status.mode s.cfg.geom s.inMem = .ok f) :
    engineStep s = .next { s with
      status := succeededStatus s.status.mode, outLen := BitVec.ofNat 32 (outFrameBytes s.cfg.geom),
      outMem := (pack s.cfg.geom f s.outMem).mem } := by
  rw [engineStep_busy hb, operation_of_reduce_ok hv h, finish_eq (divides_of_validate hv) (reduceFrame_shaped h)]
  rfl

/-- An engine step that completes on a valid frame packs its reduction. -/
theorem engineStep_next_of_validFrame {s t : State} (h : engineStep s = .next t) (hb : s.status.busy = true)
    (hvalid : validFrame s) : ∃ f, reduceFrame s.status.mode s.cfg.geom s.inMem = .ok f ∧
      t.outMem = (pack s.cfg.geom f s.outMem).mem := by
  rw [engineStep_busy hb] at h
  obtain ⟨code, plane, hv, -⟩ | ⟨-, -, f, hf, -, rfl⟩ := operation_next h
  · simp [validate_of_validFrame hvalid] at hv
  · exact ⟨f, hf, rfl⟩

section
variable {s t : State} (h : engineStep s = .next t) (hb : s.status.busy = true) (hvalid : validFrame s)
include h hb hvalid

/-- The output luma bytes of an operation are the reduced samples of its luma view. -/
theorem read_outMem_luma {r c : Nat} (hr : r < outH s.cfg.geom) (hc : c < outW s.cfg.geom) :
    Memory.read t.outMem (r * outW s.cfg.geom + c) =
      (reducePlane s.status.mode s.cfg.geom (lumaView s.cfg.geom s.inMem) r c).toOption := by
  obtain ⟨f, hf, hout⟩ := engineStep_next_of_validFrame h hb hvalid
  rw [reduceFrame_eq_reduceWith] at hf
  rw [hout, read_pack_luma _ hf hr hc]

/-- The output bytes of a chroma channel are the reduced samples of that channel's view. -/
theorem read_outMem_chroma {rc cc ch : Nat} (hrc : rc < outChH s.cfg.geom) (hcc : cc < outChW s.cfg.geom)
    (hch : ch < 2) :
    Memory.read t.outMem (outYBytes s.cfg.geom + rc * outChStride s.cfg.geom + (2 * cc + ch)) =
      (reducePlane s.status.mode s.cfg.geom (chromaView s.cfg.geom s.inMem ch) rc cc).toOption := by
  obtain ⟨f, hf, hout⟩ := engineStep_next_of_validFrame h hb hvalid
  rw [reduceFrame_eq_reduceWith] at hf
  rw [hout, read_pack_chroma (ch := fun k => reducePlane s.status.mode s.cfg.geom (chromaView s.cfg.geom s.inMem k))
    _ hf hrc hcc hch]

end

/-! ### A frame whose cells are all written -/

section
variable {c : Config} {mem : Memory} {px : Nat → Byte} (hg : Divides c.geom)
  (hpx : ∀ a, a < inFrameBytes c.geom → Memory.read mem a = some (px a))
include hg hpx

theorem blockReads_lumaView {r col : Nat} (hr : r < outH c.geom) (hc : col < outW c.geom) :
    BlockReads c.geom (lumaView c.geom mem) (fun y x => px (lumaAddr c.geom y x)) r col :=
  fun _ _ hi hj => readCell_ok.2 (hpx _ (lumaRead_lt hg hr hc hi hj))

theorem blockReads_chromaView {ch rc cc : Nat} (hrc : rc < outChH c.geom) (hcc : cc < outChW c.geom) (hch : ch < 2) :
    BlockReads c.geom (chromaView c.geom mem ch) (fun y x => px (chromaAddr c.geom ch y x)) rc cc :=
  fun _ _ hi hj => readCell_ok.2 (hpx _ (chromaRead_lt hg hrc hcc hi hj hch))

/-- AvgFrame succeeds on a written frame (43_average_reducer.md R165, R166). -/
theorem exists_avgFrame_eq_ok : ∃ f, avgFrame c.geom mem = .ok f :=
  ⟨_, reduceWith_ok (fun _ _ hr hc => (blockReads_lumaView hg hpx hr hc).blockAvg_eq)
    (fun _ _ hr hc => (blockReads_chromaView hg hpx hr hc (by omega)).blockAvg_eq)
    fun _ _ hr hc => (blockReads_chromaView hg hpx hr hc (by omega)).blockAvg_eq⟩

end

end Sys2Proof.Machine
end

section
/-! PROOFS of the statements about 43_average_reducer.md: the block average (R161 to R164), the laws of the rounding
divide (R168 to R170), the output of an Average operation (R165, R166) and what an operation's output depends on
(R166, R167). -/

namespace Sys2Proof

open Sys2Proof.Machine Sys2Proof.Claims

/-- Settles O46: the sum of N bytes is at most 255 * N, so no truncation changes it. -/
theorem blockAverageIsExact : Obligations.BlockAverageIsExact := by
  intro c p f r col h
  have hreads : BlockReads c.geom p f r col := h
  exact ⟨Nat.mul_comm 255 _ ▸ blockTotal_le_max c.geom f r col, roundedMean_blockTotal_le c f r col,
    hreads.blockSum_eq, hreads.blockAvg_eq⟩

/-- Settles O47: without truncation the divide is (S + N div 2) div N, the floor of the mean plus a half. -/
theorem roundingDivideIsNearest : Obligations.RoundingDivideIsNearest := by
  intro n sum hpos hn hsum
  rw [toNat_roundDivide hpos hn hsum, floor_mean_add_half sum.toNat hpos]

/-- Settles O48: bounds of the samples are bounds of the exact mean, and rounding to nearest keeps integer bounds. -/
theorem blockAverageWithinRange : Obligations.BlockAverageWithinRange := by
  intro c p f r col lo hi h
  have hreads : BlockReads c.geom p f r col := fun i j hi' hj => (h i j hi' hj).1
  obtain ⟨hlo, hhi⟩ := roundedMean_mem_Icc (c := c) (le_blockTotal fun i j hi' hj => (h i j hi' hj).2.1)
    (blockTotal_le fun i j hi' hj => (h i j hi' hj).2.2)
  rw [← toNat_roundedMean_blockTotal] at hlo hhi
  refine ⟨_, hreads.blockAvg_eq, hlo, hhi, fun heq => BitVec.eq_of_toNat_eq ?_⟩
  subst heq
  exact Nat.le_antisymm hhi hlo

/-- Settles O50: every block of a written frame is read and averaged, and the packer puts each average at its place. -/
theorem averageOperationOutput : Obligations.AverageOperationOutput := by
  intro s px hb hmode hvalid hpx g
  have hv := validate_of_validFrame hvalid
  have hg := divides_of_validate hv
  obtain ⟨f, hf⟩ := exists_avgFrame_eq_ok hg hpx
  have hred : reduceFrame s.status.mode g s.inMem = .ok f := by rw [hmode]; exact hf
  have hstep := engineStep_of_reduce_ok hb hv hred
  refine ⟨_, by rw [hstep, hmode], fun r c hr hc => ?_, fun rc cc ch hrc hcc hch => ?_,
    fun a ha => read_pack_beyond _ hg (reduceFrame_shaped hred) ha, rfl⟩
  · rw [read_outMem_luma hstep hb hvalid hr hc, hmode]
    exact congrArg Except.toOption (blockReads_lumaView hg hpx hr hc).blockAvg_eq
  · rw [read_outMem_chroma hstep hb hvalid hrc hcc hch, hmode]
    exact congrArg Except.toOption (blockReads_chromaView hg hpx hrc hcc hch).blockAvg_eq

/-- Settles O55: Validate and the reducer read the geometry, MODE, IN_LEN and IN alone, and the packer overwrites the
whole frame. -/
theorem operationDependsOnlyOnInputs : Obligations.OperationDependsOnlyOnInputs := by
  intro s₁ s₂ t₁ hb₁ hb₂ hcfg hmode hlen hin h
  rw [engineStep_busy hb₁] at h
  obtain ⟨code, plane, hv, rfl⟩ | ⟨hv, hg, f, hred, hf, rfl⟩ := operation_next h
  · rw [hcfg, hlen] at hv
    refine ⟨_, engineStep_of_validate_some hb₂ hv, ?_, fun herror => nomatch herror⟩
    rw [← hmode]
    rfl
  · rw [hcfg, hlen] at hv
    rw [hmode, hcfg, hin] at hred
    refine ⟨_, engineStep_of_reduce_ok hb₂ hv hred, ?_, fun _ => ⟨?_, fun a ha => ?_⟩⟩
    · rw [← hmode]
      rfl
    · rw [hcfg]
    · rw [← hcfg]
      exact read_pack_within _ _ hg hf ha

/-- Settles O56: each plane is reduced from its own cells, and its samples go to places of their own. -/
theorem chromaLanesIndependent : Obligations.ChromaLanesIndependent := by
  intro s₁ s₂ t₁ t₂ hb hvalid _ hs h₁ h₂ g
  obtain ⟨mem, rfl⟩ : ∃ mem, s₂ = { s₁ with inMem := mem } := ⟨_, hs⟩
  have hvalid₂ : validFrame { s₁ with inMem := mem } := hvalid
  have hg := divides_of_validate (validate_of_validFrame hvalid)
  refine ⟨fun hluma a ha => ?_, fun ch hch hlane rc cc hrc hcc => ?_⟩
  · obtain ⟨⟨r, c⟩, ⟨hr, hc, rfl⟩, -⟩ := existsUnique_rowMajor ha
    rw [read_outMem_luma h₁ hb hvalid hr hc, read_outMem_luma h₂ hb hvalid₂ hr hc]
    exact congrArg Except.toOption (reducePlane_lumaView_congr _ hg hr hc hluma)
  · rw [read_outMem_chroma h₁ hb hvalid hrc hcc hch, read_outMem_chroma h₂ hb hvalid₂ hrc hcc hch]
    exact congrArg Except.toOption (reducePlane_chromaView_congr _ hg hrc hcc hlane)

end Sys2Proof
end

section
/-! SUPPORT. The facts the statements about 44_skip_reducer.md are put together from: the cells Skip mode selects
(R180, R181), what the reducer makes of them (R183), and that it looks at no other (R184). -/

namespace Sys2Proof.Machine

open Sys2Proof.Claims

/-! ### The selected cells are those of the read order (44_skip_reducer.md R184) -/

/-- The luma cell selected for output position (r, c) (44_skip_reducer.md R180). -/
theorem lumaAddr_mem_skipReadOrder {g : Geometry} {r c : Nat} (hr : r < outH g) (hc : c < outW g) :
    lumaAddr g (r * g.fy) (c * g.fx) ∈ skipReadOrder g := by
  simp only [skipReadOrder, frameOrder, List.mem_append, List.mem_flatMap, List.mem_range, List.mem_singleton]
  exact .inl ⟨r, hr, c, hc, rfl⟩

/-- The two cells selected for output chroma position (rc, cc), one a channel (44_skip_reducer.md R181). -/
theorem chromaAddr_mem_skipReadOrder {g : Geometry} {ch rc cc : Nat} (hrc : rc < outChH g) (hcc : cc < outChW g)
    (hch : ch < 2) : chromaAddr g ch (rc * g.fy) (cc * g.fx) ∈ skipReadOrder g := by
  simp only [skipReadOrder, frameOrder, List.mem_append, List.mem_flatMap, List.mem_range, List.mem_singleton]
  refine .inr ⟨rc, hrc, cc, hcc, ?_⟩
  obtain rfl | rfl : ch = 0 ∨ ch = 1 := by omega
  · exact .inl rfl
  · exact .inr rfl

/-! ### A frame whose selected cells are written -/

section
variable {g : Geometry} {mem : Memory} {px : Nat → Byte}
  (hpx : ∀ a ∈ skipReadOrder g, Memory.read mem a = some (px a))
include hpx

/-- The luma sample selected is copied verbatim (44_skip_reducer.md R180, R183). -/
theorem topLeft_lumaView_eq {r c : Nat} (hr : r < outH g) (hc : c < outW g) :
    topLeft g (lumaView g mem) r c = .ok (px (r * g.fy * g.inW + c * g.fx)) :=
  readCell_ok.2 (hpx _ (lumaAddr_mem_skipReadOrder hr hc))

/-- Each byte of the ChromaSample selected is copied verbatim (44_skip_reducer.md R181, R183). -/
theorem topLeft_chromaView_eq {ch rc cc : Nat} (hrc : rc < outChH g) (hcc : cc < outChW g) (hch : ch < 2) :
    topLeft g (chromaView g mem ch) rc cc = .ok (px (inYBytes g + rc * g.fy * g.inW + 2 * (cc * g.fx) + ch)) := by
  rw [Nat.add_assoc _ _ ch]
  exact readCell_ok.2 (hpx _ (chromaAddr_mem_skipReadOrder hrc hcc hch))

/-- SkipFrame succeeds when the selected cells are written (44_skip_reducer.md R184). -/
theorem exists_skipFrame_eq_ok : ∃ f, skipFrame g mem = .ok f :=
  ⟨_, reduceWith_ok (fun _ _ hr hc => topLeft_lumaView_eq hpx hr hc)
    (fun _ _ hr hc => topLeft_chromaView_eq hpx hr hc (by omega))
    fun _ _ hr hc => topLeft_chromaView_eq hpx hr hc (by omega)⟩

end

/-! ### The cells that are not selected -/

/-- Memories that read alike at the selected cells give the same frame or the same error (44_skip_reducer.md R184). -/
theorem skipFrame_congr {g : Geometry} {mem mem' : Memory}
    (h : ∀ a ∈ skipReadOrder g, Memory.read mem a = Memory.read mem' a) : skipFrame g mem = skipFrame g mem' :=
  reduceWith_congr (fun _ _ hr hc => readCell_congr (h _ (lumaAddr_mem_skipReadOrder hr hc)))
    (fun _ _ hr hc => readCell_congr (h _ (chromaAddr_mem_skipReadOrder hr hc (by omega))))
    fun _ _ hr hc => readCell_congr (h _ (chromaAddr_mem_skipReadOrder hr hc (by omega)))

section
variable {s : State} {m : Memory} (hb : s.status.busy = true)
  (hred : reduceFrame s.status.mode s.cfg.geom m = reduceFrame s.status.mode s.cfg.geom s.inMem)
include hb hred

/-- An operation that faults does so in the same way on a memory that reduces alike. -/
theorem engineStep_withInMem_fault {f : Fault} (h : engineStep s = .fault f) :
    engineStep { s with inMem := m } = .fault f := by
  rw [engineStep_busy hb] at h
  obtain ⟨hv, a, rfl, herror, -⟩ := operation_fault h
  exact (engineStep_busy (s := { s with inMem := m }) hb).trans (operation_of_reduce_error hv (hred.trans herror))

/-- An operation that completes does so in the same way on a memory that reduces alike, up to IN itself. -/
theorem engineStep_withInMem_next {t : State} (h : engineStep s = .next t) :
    engineStep { s with inMem := m } = .next { t with inMem := m } := by
  rw [engineStep_busy hb] at h
  obtain ⟨code, plane, hv, rfl⟩ | ⟨hv, -, f, hf, -, rfl⟩ := operation_next h
  · exact engineStep_of_validate_some (s := { s with inMem := m }) hb hv
  · exact engineStep_of_reduce_ok (s := { s with inMem := m }) hb hv (hred.trans hf)

end

end Sys2Proof.Machine
end

section
/-! PROOFS of the statements about 44_skip_reducer.md: the output of a Skip operation (R180, R181, R183) and the cells
it depends on (R184). -/

namespace Sys2Proof

open Sys2Proof.Machine Sys2Proof.Claims

/-- Settles O51: every selected sample is read and copied, and the packer puts each at its place. -/
theorem skipOperationOutput : Obligations.SkipOperationOutput := by
  intro s px hb hmode hvalid hpx g
  have hv := validate_of_validFrame hvalid
  have hg := divides_of_validate hv
  obtain ⟨f, hf⟩ := exists_skipFrame_eq_ok hpx
  have hred : reduceFrame s.status.mode g s.inMem = .ok f := by rw [hmode]; exact hf
  have hstep := engineStep_of_reduce_ok hb hv hred
  refine ⟨_, by rw [hstep, hmode], fun r c hr hc => ?_, fun rc cc ch hrc hcc hch => ?_,
    fun a ha => read_pack_beyond _ hg (reduceFrame_shaped hred) ha, rfl⟩
  · rw [read_outMem_luma hstep hb hvalid hr hc, hmode]
    exact congrArg Except.toOption (topLeft_lumaView_eq hpx hr hc)
  · rw [read_outMem_chroma hstep hb hvalid hrc hcc hch, hmode]
    exact congrArg Except.toOption (topLeft_chromaView_eq hpx hrc hcc hch)

/-- Settles O57: SkipFrame reads the selected cells alone, and the rest of OPERATION does not read IN. -/
theorem skipReadsOnlySelectedCells : Obligations.SkipReadsOnlySelectedCells := by
  intro s m hb hmode hm
  have hred : reduceFrame s.status.mode s.cfg.geom m = reduceFrame s.status.mode s.cfg.geom s.inMem := by
    rw [hmode]
    exact skipFrame_congr hm
  exact ⟨fun _ => engineStep_withInMem_fault hb hred, fun _ => engineStep_withInMem_next hb hred⟩

end Sys2Proof
end

section
/-! SUPPORT. The facts the statements about 45_output_packer.md are put together from: a frame made of given samples
as a reduction (R195, R196), the cells of OUT the packer writes (R197), and the size of the output frame (R198, R199). -/

namespace Sys2Proof.Machine

/-! ### A frame made of given samples -/

/-- The plane of one channel of a grid of ChromaSamples: U is channel 0 and V channel 1 (45_output_packer.md R196). -/
def channelOf (co : Nat → Nat → Byte × Byte) (ch : Nat) : Plane := fun rc cc =>
  .ok (if ch = 0 then (co rc cc).1 else (co rc cc).2)

/-- A frame whose rows are given samples is the reduction of planes that answer those samples. -/
theorem reduceWith_eq_ok_of_samples {g : Geometry} {f : Reduced} {y : Nat → Nat → Byte} {co : Nat → Nat → Byte × Byte}
    (hluma : f.luma = (List.range (outH g)).map fun r => (List.range (outW g)).map (y r))
    (hchroma : f.chroma = (List.range (outChH g)).map fun rc => (List.range (outChW g)).map (co rc)) :
    reduceWith g (fun r c => .ok (y r c)) (channelOf co 0) (channelOf co 1) = .ok f := by
  obtain ⟨luma, chroma⟩ := f
  cases hluma
  cases hchroma
  exact reduceWith_ok (fun _ _ _ _ => rfl) (fun _ _ _ _ => rfl) fun _ _ _ _ => rfl

/-! ### The cells the packer writes -/

section
variable {g : Geometry} {f : Reduced} (hf : f.Shaped g) (out : Memory) {a : Nat}
include hf

/-- Every address before the end of the packed bytes is written. -/
theorem isSome_read_pack (ha : a < outYBytes g + outChH g * outChStride g) :
    (Memory.read (pack g f out).mem a).isSome = true := by
  have hin : a < f.bytes.length := hf.length_bytes ▸ ha
  rw [pack_read hf, if_pos hin, List.getElem?_eq_getElem hin, Option.isSome_some]

/-- Every address from the end of the packed bytes on is left alone. -/
theorem read_pack_of_le (ha : outYBytes g + outChH g * outChStride g ≤ a) :
    Memory.read (pack g f out).mem a = Memory.read out a := by
  rw [pack_read hf, if_neg (by rw [hf.length_bytes]; omega)]

end

/-! ### The size of the output frame -/

/-- The chroma rows of the output hold two bytes a sample, in any geometry. -/
theorem outChH_mul_outChStride (g : Geometry) : outChH g * outChStride g = 2 * outChH g * outChW g := by
  rw [outChStride]
  ring

/-- The output frame is no larger than the input frame, so its length fits OUT_LEN (00_scope.md R7). -/
theorem outFrameBytes_lt (c : Config) : outFrameBytes c.geom < 2 ^ 32 := by
  have hle : outW c.geom * outH c.geom ≤ c.geom.inW * c.geom.inH :=
    Nat.mul_le_mul (Nat.div_le_self _ _) (Nat.div_le_self _ _)
  calc outFrameBytes c.geom ≤ inFrameBytes c.geom := Nat.div_le_div_right (Nat.mul_le_mul_right 3 hle)
    _ < 2 ^ 32 := inFrameBytes_lt c

/-- Validate never reports INTERNAL_SIZE (60_exceptions.md R214). -/
theorem ne_internalSize_of_validate {g : Geometry} {len : Word} {code : ErrCode} {plane : ErrPlane}
    (h : validate g len = some (code, plane)) : code ≠ .internalSize := by
  obtain ⟨rfl, -⟩ | ⟨rfl, -⟩ := validate_some h <;> decide

end Sys2Proof.Machine
end

section
/-! PROOFS of the statements about 45_output_packer.md: where the packer puts a frame (R195, R196), and what a
successful operation has written (R197 to R199). -/

namespace Sys2Proof

open Sys2Proof.Machine

/-- Settles O52: the frame is the reduction of planes that answer its samples, and the packer puts each sample of a
reduction at its place. -/
theorem packerPlacesFrame : Obligations.PackerPlacesFrame := by
  intro g f out y co hluma hchroma p
  have hred := reduceWith_eq_ok_of_samples hluma hchroma
  have hf : f.Shaped g := (reduceWith_eq_ok hred).1
  have placed {rc cc ch : Nat} (hrc : rc < outChH g) (hcc : cc < outChW g) (hch : ch < 2) :=
    read_pack_chroma (ch := channelOf co) out hred hrc hcc hch
  refine ⟨fun r c hr hc => read_pack_luma out hred hr hc,
    fun rc cc hrc hcc => ⟨placed hrc hcc (by decide : 0 < 2), placed hrc hcc (by decide : 1 < 2)⟩,
    fun a ha => read_pack_of_le hf out ?_, ?_⟩
  · rwa [outChH_mul_outChStride]
  · rw [pack_count hf, outChH_mul_outChStride, outYBytes, Nat.mul_comm (outW g)]

/-- Settles O53: an operation fails validation and reports its error, or packs a frame of OUT_FRAME_BYTES bytes. -/
theorem successFillsOut : Obligations.SuccessFillsOut := by
  intro s t hb h
  rw [engineStep_busy hb] at h
  obtain ⟨code, plane, hv, rfl⟩ | ⟨-, hg, f, -, hf, rfl⟩ := operation_next h
  · exact ⟨ne_internalSize_of_validate hv, fun herror => nomatch herror⟩
  · refine ⟨nofun, fun _ => ⟨?_, fun a ha => ?_, fun a ha => read_pack_beyond _ hg hf ha⟩⟩
    · exact Nat.mod_eq_of_lt (outFrameBytes_lt s.cfg)
    · exact isSome_read_pack hf _ (hg.outFrameBytes_eq ▸ ha)

end Sys2Proof
end

section
/-! SUPPORT. The facts the statements about 60_exceptions.md are put together from: the request a write was decoded
from, the bits of STATUS and IRQ_EN that make `irq` (R219), what makes it rise, and what takes an op error away (R216). -/

namespace Sys2Proof

/-- A REG_WRITE is decoded from its own encoding alone, in either spelling (30_encoding.md R81, log entry 10). -/
theorem eq_encode_of_decode_regWrite {h : Hrd} {i : Instr} (hi : decode h = .ok i)
    (hkind : (encode i).kind = 0x06) : h = encode i := by
  obtain ⟨k, hk, rfl⟩ := decode_ok hi
  rw [encode_decodeKind] at hkind
  obtain rfl := Machine.bits_eq_regWrite.1 hkind
  rw [decodeKind, (decodeRegWrite_spec h.addr h.wdata).2, ← hkind, hk]

end Sys2Proof

namespace Sys2Proof.Machine

/-! ### The level of `irq` (60_exceptions.md R219) -/

theorem Status.word_getLsbD_done (st : Status) : st.word.getLsbD 1 = st.done := by
  rw [st.word_eq_setWidth, BitVec.getLsbD_setWidth]
  simp only [BitVec.getLsbD_append]
  simp

theorem readReg_irqEn_getLsbD_en (s : State) : (readReg s .irqEn).getLsbD 0 = s.irqEn := by
  simp [readReg]

section
variable {s t : State} {i : Instr} (h : ExecEffect s i t)
include h

/-- Every effect of exec but the response alone answers OKAY, so a bus error leaves `irq` as it is. -/
theorem ExecEffect.irq_eq_of_busError {info : BusErrorInfo} (hresp : t.response = some (.busError info)) :
    t.irq = s.irq := by
  cases h with
  | response => rfl
  | irqEn | inLen | start | clear | illegal | store => cases hresp

/-- The requests that raise `irq`: an illegal command completes, and a write of IRQ_EN sets EN. -/
theorem ExecEffect.irq_rises (hlow : s.irq = false) (hhigh : t.irq = true) :
    (∃ w : Word, i = .regWrite 0x04 w ∧ w.toNat > 3 ∧ t.status.errCode = .usage) ∨
    ∃ v : Word, i = .regWrite 0x0C v ∧ v.getLsbD 0 = true := by
  cases h with
  | response | inLen | store => cases hlow.symm.trans hhigh
  | start | clear => cases hhigh
  | illegal w _ hw => exact .inl ⟨w, rfl, hw, rfl⟩
  | irqEn v => exact .inr ⟨v, rfl, (Bool.and_eq_true_iff.1 hhigh).2⟩

/-! ### Leaving an op error (60_exceptions.md R216) -/

/-- The requests that take ERROR away are CTRL writes of a START or of CLEAR_STATUS. -/
theorem ExecEffect.error_cleared (herror : s.status.error = true) (hclear : t.status.error = false) :
    ∃ w ∈ ([0x1, 0x2, 0x3] : List Word), encode i = ⟨0x06, 0x04, w⟩ := by
  cases h with
  | response | irqEn | inLen | store => cases herror.symm.trans hclear
  | illegal => cases hclear
  | start _ _ _ _ hi =>
    obtain rfl | rfl | rfl | rfl := hi
    · exact ⟨0x1, by decide, rfl⟩
    · exact ⟨0x2, by decide, rfl⟩
    · exact ⟨0x1, by decide, rfl⟩
    · exact ⟨0x2, by decide, rfl⟩
  | clear _ _ hi => obtain rfl | rfl := hi <;> exact ⟨0x3, by decide, rfl⟩

end

/-- No operation is in flight while STATUS holds an op error. -/
theorem Status.Consistent.idle_of_error {st : Status} (h : st.Consistent) (herror : st.error = true) :
    st.busy = false := by
  obtain ⟨hbusy, -⟩ := h
  refine Bool.eq_false_iff.2 fun hb => ?_
  obtain ⟨-, hok, -⟩ := hbusy hb
  cases herror.symm.trans hok

/-! ### The error completion of an operation (60_exceptions.md R213) -/

/-- A wrong count of packed bytes ends the operation in INTERNAL_SIZE, after OUT and OUT_LEN were written. -/
theorem finish_of_wrong_count {p : Packed} {s : State} (h : p.count ≠ outFrameBytes s.cfg.geom) :
    finish p s = opError .internalSize .none { s with outMem := p.mem, outLen := BitVec.ofNat 32 p.count } :=
  if_pos h

end Sys2Proof.Machine
end

section
/-! PROOFS of the statements about 60_exceptions.md: the error completion (R213, R214), how an op error is left
(R216), and the level of `irq` (R219). -/

namespace Sys2Proof

open Sys2Proof.Machine

/-- Settles O39: the engine's turn raises `irq` only where an operation ended, and a request only by the two effects
of exec that complete a command or set EN; a reset clears EN. -/
theorem irqLevel : Obligations.IrqLevel := by
  refine ⟨fun s => ?_, fun s t hstep hlow hhigh => ?_, fun s t info hstep ⟨h, rest, hi⟩ hresp => ?_⟩
  · rw [readReg, Status.word_getLsbD_done, readReg_irqEn_getLsbD_en, State.irq]
  · obtain ⟨h, rest, hi, hserve⟩ | ⟨hturn, hengine⟩ | ⟨rest, -, rfl⟩ := step_next hstep
    · refine .inr ⟨h, rest, hi, ?_⟩
      obtain ⟨r, rfl⟩ | ⟨i, hdecode, heffect⟩ := serveRequest_next hserve
      · cases hlow.symm.trans hhigh
      · obtain ⟨w, rfl, hw, hcode⟩ | ⟨v, rfl, hen⟩ := heffect.irq_rises hlow hhigh
        · obtain rfl := eq_encode_of_decode_regWrite hdecode rfl
          exact ⟨rfl, .inl ⟨rfl, hw, hcode⟩⟩
        · obtain rfl := eq_encode_of_decode_regWrite hdecode rfl
          exact ⟨rfl, .inr ⟨rfl, hen⟩⟩
    · obtain ⟨-, rfl⟩ | ⟨hb, -⟩ := engineStep_next hengine
      · cases hlow.symm.trans hhigh
      · exact .inl ⟨hb, engineStep_not_busy hengine, hturn⟩
    · cases hhigh
  · rw [step_request hi] at hstep
    obtain ⟨r, rfl⟩ | ⟨i, -, heffect⟩ := serveRequest_next hstep
    · rfl
    · exact heffect.irq_eq_of_busError hresp

/-- Settles O40: with an op error the machine is idle, so the engine's turn changes nothing and every command is
accepted; of the requests, only a START and CLEAR_STATUS take the error away. -/
theorem opErrorLeftOnlyByHostAction : Obligations.OpErrorLeftOnlyByHostAction := by
  refine ⟨fun s t hcons herror hstep hclear => ?_, fun s hcons herror => ?_⟩
  · obtain ⟨h, rest, hi, hserve⟩ | ⟨-, hengine⟩ | ⟨rest, hi, -⟩ := step_next hstep
    · refine .inr ⟨h, rest, hi, ?_⟩
      obtain ⟨r, rfl⟩ | ⟨i, hdecode, heffect⟩ := serveRequest_next hserve
      · cases herror.symm.trans hclear
      · obtain ⟨w, hw, hencode⟩ := heffect.error_cleared herror hclear
        obtain rfl : h = ⟨0x06, 0x04, w⟩ := hencode ▸ eq_encode_of_decode_regWrite hdecode (by rw [hencode])
        exact ⟨rfl, rfl, hw⟩
    · obtain ⟨-, rfl⟩ | ⟨hb, -⟩ := engineStep_next hengine
      · cases herror.symm.trans hclear
      · cases (hcons.idle_of_error herror).symm.trans hb
    · exact .inl ⟨rest, hi⟩
  · have idle : s.status.busy = false := hcons.idle_of_error herror
    exact ⟨⟨_, writeCtrl_idle idle, rfl, rfl, rfl⟩, ⟨_, writeCtrl_idle idle, rfl, rfl, rfl⟩,
      ⟨_, writeCtrl_idle idle, rfl, rfl, rfl⟩, ⟨_, rfl, rfl⟩, ⟨_, writeCtrl_idle idle, rfl⟩,
      fun w _ => ⟨_, writeCtrl_idle (cmd := command w) idle, rfl⟩⟩

/-- Settles O42: eleven closed words, each evaluated. -/
theorem opErrorStatusWords : Obligations.OpErrorStatusWords := by
  unfold Obligations.OpErrorStatusWords
  decide

/-- Settles O43: the error completion is a write of STATUS that leaves DONE = 1, so `irq` is IRQ_EN.EN; a wrong
count ends in it after the packer's writes. -/
theorem opErrorWritesOnlyStatus : Obligations.OpErrorWritesOnlyStatus := fun s _ _ _ =>
  ⟨rfl, Bool.true_and s.irqEn, fun _ hcount => finish_of_wrong_count hcount⟩

end Sys2Proof
end

section
/-! SUPPORT. The facts the statements about 70_reset_and_hazards.md are put together from: what must have happened
where a request or the engine's turn changed IN, IN_LEN, IRQ_EN or OUT (R248). -/

namespace Sys2Proof.Machine

open Sys2Proof.Claims

section
variable {s t : State} {i : Instr} (h : ExecEffect s i t)
include h

/-- IN is changed by an IN_WRITE alone, while BUSY = 0. -/
theorem ExecEffect.inMem_changed (hne : t.inMem ≠ s.inMem) :
    s.status.busy = false ∧ (encode i).kind ∈ ([0x0C, 0x0D, 0x0E] : List (BitVec 5)) := by
  cases h with
  | response | irqEn | inLen | start | clear | illegal => exact absurd rfl hne
  | store _ _ _ _ idle _ hi =>
    refine ⟨idle, ?_⟩
    obtain ⟨rfl, -⟩ | ⟨rfl, -⟩ | ⟨rfl, -⟩ := hi <;> simp [encode]

/-- IN_LEN is changed by a REG_WRITE to it alone, while BUSY = 0. -/
theorem ExecEffect.inLen_changed (hne : t.inLen ≠ s.inLen) :
    s.status.busy = false ∧ ∃ v, i = .regWrite 0x10 v := by
  cases h with
  | response | irqEn | start | clear | illegal | store => exact absurd rfl hne
  | inLen v idle => exact ⟨idle, v, rfl⟩

/-- IRQ_EN is changed by a REG_WRITE to it alone. -/
theorem ExecEffect.irqEn_changed (hne : t.irqEn ≠ s.irqEn) : ∃ v, i = .regWrite 0x0C v := by
  by_contra! hi
  exact hne (h.irqEn_eq hi)

end

section
variable {s t : State} (h : engineStep s = .next t)
include h

/-- The engine's turn leaves what the host writes as it is. -/
theorem engineStep_keeps_host_writes : t.inMem = s.inMem ∧ t.inLen = s.inLen ∧ t.irqEn = s.irqEn := by
  obtain ⟨-, rfl⟩ | ⟨hb, -⟩ := engineStep_next h
  · exact ⟨rfl, rfl, rfl⟩
  · obtain ⟨-, -, hmem, hlen, hen, -⟩ := completionReportsValidation s t hb h
    exact ⟨hmem, hlen, hen⟩

/-- The engine's turn changes OUT only where it completes an operation whose frame passed validation. -/
theorem engineStep_outMem_changed (hne : t.outMem ≠ s.outMem) :
    s.status.busy = true ∧ validFrame s ∧ t.status.done = true := by
  obtain ⟨-, rfl⟩ | ⟨hb, -⟩ := engineStep_next h
  · exact absurd rfl hne
  · obtain ⟨⟨-, hdone⟩, -, -, -, -, -, hinvalid⟩ := completionReportsValidation s t hb h
    exact ⟨hb, by_contra fun hv => hne (hinvalid hv).1, hdone⟩

end

/-- A reset that is pending first is taken, whatever the state (70_reset_and_hazards.md R240). -/
theorem step_reset {s : State} {rest : List Input} (hi : s.inputs = .reset :: rest) :
    step s = .next (resetAction { s with inputs := rest }) := by rw [step, hi]

end Sys2Proof.Machine
end

section
/-! PROOFS of the statements about 70_reset_and_hazards.md: reset (R240 to R242), and what changes the state that
persists across operations (R248). -/

namespace Sys2Proof

open Sys2Proof.Machine

/-- Settles O37: a request changes a field only by its own effect of exec, which its decoding traces back to the
request; the engine's turn changes OUT alone, after a passed validation. -/
theorem onlyTheseStepsChangeState : Obligations.OnlyTheseStepsChangeState := by
  intro s t hstep hreset
  obtain ⟨h, rest, hi, hserve⟩ | ⟨hturn, hengine⟩ | ⟨rest, hi, -⟩ := step_next hstep
  · obtain ⟨r, rfl⟩ | ⟨i, hdecode, heffect⟩ := serveRequest_next hserve
    · exact ⟨absurd rfl, absurd rfl, absurd rfl, absurd rfl⟩
    · refine ⟨fun hne => ?_, fun hne => ?_, fun hne => ?_, absurd heffect.outMem_eq⟩
      · obtain ⟨idle, hmem⟩ := heffect.inMem_changed hne
        obtain ⟨-, hkind, -⟩ := decodeAndEncodeAgree.2 h i hdecode
        exact ⟨h, rest, hi, idle, hkind ▸ hmem⟩
      · obtain ⟨idle, v, rfl⟩ := heffect.inLen_changed hne
        obtain rfl := eq_encode_of_decode_regWrite hdecode rfl
        exact ⟨_, rest, hi, idle, rfl, rfl⟩
      · obtain ⟨v, rfl⟩ := heffect.irqEn_changed hne
        obtain rfl := eq_encode_of_decode_regWrite hdecode rfl
        exact ⟨_, rest, hi, rfl, rfl⟩
  · obtain ⟨hmem, hlen, hen⟩ := engineStep_keeps_host_writes hengine
    refine ⟨absurd hmem, absurd hlen, absurd hen, fun hne => ?_⟩
    obtain ⟨hb, hvalid, hdone⟩ := engineStep_outMem_changed hengine hne
    exact ⟨hb, hvalid, hdone, hturn⟩
  · exact absurd hi (hreset rest)

/-- Settles O4: the reset gives each register field its reset value, so the engine is idle and DONE is 0; the
constant registers are computed from the geometry, which no step changes. -/
theorem resetFromAnyState : Obligations.ResetFromAnyState := by
  intro s rest hi
  have hstep := step_reset hi
  obtain ⟨hcfg, hconstant⟩ := geometryAndConstantsNeverChange _ _ hstep
  have hword : Status.reset.word = 0 := by decide
  exact ⟨_, hstep, rfl, hcfg, rfl, hword, rfl, rfl, rfl, rfl, engineStep_idle rfl,
    fun r hr => hconstant r (List.Sublist.mem hr (by decide)), Memory.read_nil, Memory.read_nil⟩

end Sys2Proof
end
